-- ==== Sys2Proof/Word.lean ====
section
/-! DEFINITION. The data word of the block and the byte of a program image (R4, R116). -/

namespace Sys2Proof

/-- The 16-bit data word: every register, memory word and instruction word (R4). -/
abbrev Word := BitVec 16

/-- A byte of a program image (R116). The block's own memory has no bytes (R35). -/
abbrev Byte := BitVec 8

end Sys2Proof
end

