-- ==== Sys2Proof/Syntax.lean ====
section
/-! DEFINITION. The instructions of the block, one constructor per row of spec/opcode_table.json. -/

namespace Sys2Proof

/-- The four general registers by their assembly names (R5, R11). -/
inductive Reg where
  | R0
  | R1
  | R2
  | R3
deriving DecidableEq, Repr

/-- The 4-bit reg field, `ir[11:8]` (R46). -/
abbrev RegField := BitVec 4

/-- The 8-bit operand field, `ir[7:0]` (R46). -/
abbrev OperandField := BitVec 8

/-- A decoded instruction: the opcode is the constructor, and its two fields are kept whole, as the execute phase
receives them (R75, R76). Bits an instruction ignores (R55) are kept too; the meanings do not read them
(DESIGN CHOICE, log 5: safe). -/
inductive Instr where
  /-- `0000 ---- ---- ----` (R85). -/
  | halt (reg : RegField) (operand : OperandField)
  /-- `0001 --dd iiii iiii` (R87). -/
  | lval (reg : RegField) (imm8 : OperandField)
  /-- `0010 --dd aaaa aaaa` (R88). -/
  | load (reg : RegField) (addr8 : OperandField)
  /-- `0011 --ss aaaa aaaa` (R89). -/
  | store (reg : RegField) (addr8 : OperandField)
  /-- `0100 --dd ---- --ss` (R91). -/
  | add (reg : RegField) (operand : OperandField)
  /-- `0101 --dd ---- --ss` (R92). -/
  | sub (reg : RegField) (operand : OperandField)
  /-- `0110 ---- tttt tttt` (R94). -/
  | jmp (reg : RegField) (target : OperandField)
  /-- `0111 --dd ---- --ss` (R90). -/
  | mov (reg : RegField) (operand : OperandField)
deriving DecidableEq, Repr

end Sys2Proof
end

