-- ==== Sys2Proof/WellFormed.lean ====
section
/-! DEFINITION. Well-formed instructions: those in the canonical form of R52, which the toolchain writes (R55, R62). -/

namespace Sys2Proof

/-- A register selector of the reg field in canonical form: the ignored bits `[11:10]` are 0 (R55). -/
def canonicalReg (reg : RegField) : Bool := decide (reg.toNat < 4)

/-- A register selector of the operand field in canonical form: the ignored bits `[7:2]` are 0 (R55). -/
def canonicalOperandReg (operand : OperandField) : Bool := decide (operand.toNat < 4)

/-- The instruction's ignored bits are all 0 (R52, column "canonical form"; R55). Words outside this form are no
less instructions: the block runs each exactly as its canonical form, and no statement about the machine's steps
assumes well-formedness (DESIGN CHOICE, log 6: safe). -/
def WellFormed : Instr → Bool
  | .halt reg operand => reg == 0 && operand == 0
  | .lval reg _ => canonicalReg reg
  | .load reg _ => canonicalReg reg
  | .store reg _ => canonicalReg reg
  | .add reg operand => canonicalReg reg && canonicalOperandReg operand
  | .sub reg operand => canonicalReg reg && canonicalOperandReg operand
  | .jmp reg _ => reg == 0
  | .mov reg operand => canonicalReg reg && canonicalOperandReg operand

end Sys2Proof
end

