-- ==== Sys2Proof/Decode.lean ====
section
/-! DEFINITION. The decoder and the encoder of instruction words (R45 to R58, R71). -/

namespace Sys2Proof

/-- The three fields of every instruction word, high to low (R46). -/
structure Fields where
  opcode : BitVec 4
  reg : RegField
  operand : OperandField
deriving DecidableEq, Repr

/-- Field extraction, total on every word (R46, R47, R71). -/
def decodeFields (w : Word) : Fields :=
  { opcode := w.extractLsb' 12 4, reg := w.extractLsb' 8 4, operand := w.extractLsb' 0 8 }

/-- `(opcode << 12) | ((reg & 0xF) << 8) | (operand & 0xFF)` (R48). -/
def encodeFields (f : Fields) : Word :=
  (f.opcode.setWidth 16 <<< 12) ||| ((f.reg.setWidth 16 &&& 0xF) <<< 8) ||| (f.operand.setWidth 16 &&& 0xFF)

/-- The eight operations an opcode can select (R52). -/
inductive Opcode where
  | halt
  | lval
  | load
  | store
  | add
  | sub
  | jmp
  | mov
deriving DecidableEq, Repr

/-- The 4-bit code of an operation (R52). -/
def codeOf : Opcode → BitVec 4
  | .halt => 0
  | .lval => 1
  | .load => 2
  | .store => 3
  | .add => 4
  | .sub => 5
  | .jmp => 6
  | .mov => 7

/-- The opcode lookup; `none` is UNRECOGNIZED, the codes 8 to 15 (R53). -/
def opcodeFromCode (code : BitVec 4) : Option Opcode :=
  match code.toNat with
  | 0 => some .halt
  | 1 => some .lval
  | 2 => some .load
  | 3 => some .store
  | 4 => some .add
  | 5 => some .sub
  | 6 => some .jmp
  | 7 => some .mov
  | _ => none

/-- Why a word is no instruction. -/
inductive DecodeRefusal where
  /-- The opcode field is 8 to 15 (R54). The execute phase turns this into the fault INVALID_OPCODE (R97): safe. -/
  | invalidOpcode (code : BitVec 4)
deriving DecidableEq, Repr

/-- The instruction an operation makes of the other two fields. -/
def instrOf (op : Opcode) (reg : RegField) (operand : OperandField) : Instr :=
  match op with
  | .halt => .halt reg operand
  | .lval => .lval reg operand
  | .load => .load reg operand
  | .store => .store reg operand
  | .add => .add reg operand
  | .sub => .sub reg operand
  | .jmp => .jmp reg operand
  | .mov => .mov reg operand

/-- The instruction of a word: total, a function of the word alone, refusing the opcodes 8 to 15 by name (R52, R71). -/
def decode (w : Word) : Except DecodeRefusal Instr :=
  match opcodeFromCode (decodeFields w).opcode with
  | some op => .ok (instrOf op (decodeFields w).reg (decodeFields w).operand)
  | none => .error (.invalidOpcode (decodeFields w).opcode)

/-- The operation of an instruction (R52). -/
def opcodeOf : Instr → Opcode
  | .halt _ _ => .halt
  | .lval _ _ => .lval
  | .load _ _ => .load
  | .store _ _ => .store
  | .add _ _ => .add
  | .sub _ _ => .sub
  | .jmp _ _ => .jmp
  | .mov _ _ => .mov

/-- The reg field of an instruction. -/
def regFieldOf : Instr → RegField
  | .halt reg _ => reg
  | .lval reg _ => reg
  | .load reg _ => reg
  | .store reg _ => reg
  | .add reg _ => reg
  | .sub reg _ => reg
  | .jmp reg _ => reg
  | .mov reg _ => reg

/-- The operand field of an instruction. -/
def operandFieldOf : Instr → OperandField
  | .halt _ operand => operand
  | .lval _ imm8 => imm8
  | .load _ addr8 => addr8
  | .store _ addr8 => addr8
  | .add _ operand => operand
  | .sub _ operand => operand
  | .jmp _ target => target
  | .mov _ operand => operand

/-- The word of an instruction (R48, R52). -/
def encode (i : Instr) : Word :=
  encodeFields { opcode := codeOf (opcodeOf i), reg := regFieldOf i, operand := operandFieldOf i }

/-- The canonical form of an instruction: its ignored bits set to 0 (R52, R55). -/
def canonical : Instr → Instr
  | .halt _ _ => .halt 0 0
  | .lval reg imm8 => .lval (reg &&& 3) imm8
  | .load reg addr8 => .load (reg &&& 3) addr8
  | .store reg addr8 => .store (reg &&& 3) addr8
  | .add reg operand => .add (reg &&& 3) (operand &&& 3)
  | .sub reg operand => .sub (reg &&& 3) (operand &&& 3)
  | .jmp _ target => .jmp 0 target
  | .mov reg operand => .mov (reg &&& 3) (operand &&& 3)

/-- The word whose lowest `nbits` bits are those of `w`, every bit above them 0. -/
def tableWord (nbits w : Nat) : Word := BitVec.ofNat 16 (w % 2 ^ nbits)

/-- What the decoder reads from an instruction numbered as spec/opcode_table.json numbers its bits. Every instruction
is one 16-bit word and memory has no bytes (R35, R45), so the table's number is the word. -/
def decodeTableWord (nbits w : Nat) : Option Instr :=
  match decode (tableWord nbits w) with
  | .ok i => some i
  | .error _ => none

/-- The high byte first (R66, R116). -/
def wordOfBytes (hi lo : Byte) : Word := (hi.setWidth 16 <<< 8) ||| lo.setWidth 16

/-- The two bytes of a word, the high byte first (R66). -/
def bytesOfWord (w : Word) : List Byte := [w.extractLsb' 8 8, w.extractLsb' 0 8]

end Sys2Proof
end

