-- ==== Sys2Proof/Config.lean ====
section
/-! DEFINITION. The parameters of the block. The spec fixes every one of them (`00_scope.md` section 4), so there is no free value. -/

namespace Sys2Proof.Config

/-- Number of memory words, at word addresses 0 to 63 (R6, R30). -/
abbrev memWords : Nat := 64

/-- Greatest number of words in a program (R115). -/
abbrev maxProgramWords : Nat := 64

/-- What a memory word reads as when nothing but the zero-fill of reset has written it (R27, R118). -/
abbrev zeroFill : Word := 0

end Sys2Proof.Config
end

