-- ==== Sys2Proof/Machine/State.lean ====
section
/-! DEFINITION. The state of the block, the reasons a step can stop, and the machine right after reset (R10, R27). -/

namespace Sys2Proof.Machine

/-- The register file: four 16-bit registers, none hardwired, no banks (R11, R14). -/
structure RegFile where
  r0 : Word
  r1 : Word
  r2 : Word
  r3 : Word
deriving DecidableEq, Repr

/-- A memory word at a word address. The block's memory has no bytes (R35), so the cell is a word, not a byte
(DESIGN CHOICE, log 4: safe). -/
abbrev Cell := Nat × Word

/-- The 64-word memory as a list of cells (R30). A word address that is not listed reads as 0, the zero-fill of
reset (R118). The canonical form is `Memory.wf` of Machine/Ops.lean. -/
abbrev Memory := List Cell

/-- A program: a sequence of words (R115). -/
abbrev Program := List Word

/-- The four values of the fault status (R22). -/
inductive FaultStatus where
  /-- Code 0: no fault since reset. -/
  | none
  /-- Code 1: execute of an opcode in 8 to 15 (R97). -/
  | invalidOpcode
  /-- Code 2: fetch with `pc >= 64` (R98). -/
  | fetchOutOfRange
  /-- Code 3: LOAD or STORE with operand `>= 64` (R99). -/
  | dataOutOfRange
deriving DecidableEq, Repr

/-- Why a step has no next state. The three faults of the spec (R96) are not here: R100 describes their
entry, `fault <- C`, and it is taken as a next state whose `fault` is set. -/
inductive Fault where
  /-- Raised by every command but LOAD before the first accepted load, when there is no program and no run (R117).
  Safe: nothing is claimed of the state before the first load (DEDUCED, log 1). -/
  | noProgram
deriving DecidableEq, Repr

/-- Why an instruction has no meaning. No arm of `exec` answers with it: all eight instructions have their meaning. -/
inductive Refusal where
  /-- Raised by an arm of `exec` whose instruction has no meaning yet; none is left. Safe. -/
  | notModelled (mnemonic : String)
deriving DecidableEq, Repr

/-- The state of the block: the tuple of R10 and the recorded program of R117. -/
structure State where
  /-- `x[0]` to `x[3]` (R11). -/
  regs : RegFile
  /-- The program counter, a word address (R15). -/
  pc : Word
  /-- The instruction register: the most recently fetched word (R20). -/
  ir : Word
  /-- `mem[0]` to `mem[63]` (R30). -/
  mem : Memory
  /-- The halted flag (R21). -/
  halted : Bool
  /-- The fault status (R22). -/
  fault : FaultStatus
  /-- The program last accepted by a load, which reset reads; `none` before the first accepted load (R117, R118).
  R10 does not count it as state of a run: no cycle reads or writes it (DESIGN CHOICE, log 2: safe). -/
  program : Option Program
deriving DecidableEq, Repr

/-- The machine right after reset (R27, R118), with the program of 0 words recorded (R72, R115): every memory word
is 0 (DESIGN CHOICE, log 3: safe). A program comes in by the LOAD command (Machine/Commands.lean). -/
def State.reset : State :=
  { regs := { r0 := 0, r1 := 0, r2 := 0, r3 := 0 }
    pc := 0
    ir := 0
    mem := []
    halted := false
    fault := .none
    program := some [] }

end Sys2Proof.Machine
end

