-- ==== Sys2Proof/Machine/Ops.lean ====
section
/-! DEFINITION. The named operations over registers and memory, the ALU, fault entry, and reset. -/

namespace Sys2Proof.Machine

/-! ### Registers (R11) -/

/-- The value of a register. -/
def RegFile.read (x : RegFile) (r : Reg) : Word :=
  match r with
  | .R0 => x.r0
  | .R1 => x.r1
  | .R2 => x.r2
  | .R3 => x.r3

/-- The register file with one register written. -/
def RegFile.write (x : RegFile) (r : Reg) (v : Word) : RegFile :=
  match r with
  | .R0 => { x with r0 := v }
  | .R1 => { x with r1 := v }
  | .R2 => { x with r2 := v }
  | .R3 => { x with r3 := v }

/-- `x[r]` (R11). -/
def State.readReg (s : State) (r : Reg) : Word := s.regs.read r

/-- `x[n]` by its index 0 to 3 (R10); the instructions select with 2 bits, so no other index occurs (R12). -/
def State.x (s : State) (n : Nat) : Word :=
  match n with
  | 0 => s.regs.r0
  | 1 => s.regs.r1
  | 2 => s.regs.r2
  | _ => s.regs.r3

/-- `x[r] <- v` (R11). -/
def State.writeReg (s : State) (r : Reg) (v : Word) : State := { s with regs := s.regs.write r v }

/-! ### Memory (R30 to R36) -/

/-- `mem[a]`: the first cell listed at `a`, else the zero-fill. -/
def Memory.wordAt : Memory → Nat → Word
  | [], _ => Config.zeroFill
  | c :: m, a => if c.1 = a then c.2 else Memory.wordAt m a

/-- The cells at addresses other than `a`. -/
def Memory.without : Memory → Nat → Memory
  | [], _ => []
  | c :: m, a => if c.1 = a then Memory.without m a else c :: Memory.without m a

/-- A cell put in before the first cell of a greater address. -/
def Memory.insertCell : Memory → Nat → Word → Memory
  | [], a, v => [(a, v)]
  | c :: m, a, v => if a < c.1 then (a, v) :: c :: m else c :: Memory.insertCell m a v

/-- `mem[a] <- v` in canonical form: no cell is listed for the zero-fill value. -/
def Memory.setWord (m : Memory) (a : Nat) (v : Word) : Memory :=
  if v = Config.zeroFill then m.without a else (m.without a).insertCell a v

/-- The canonical form: addresses strictly rising, all of them below 64 (R30), and no cell equal to what an unlisted
address reads as. Equal memories in this form are equal lists. -/
abbrev Memory.wf (m : Memory) : Prop :=
  m.Pairwise (fun c d => c.1 < d.1) ∧ ∀ c ∈ m, c.1 < Config.memWords ∧ c.2 ≠ Config.zeroFill

/-- `MemRead(addr, 1)`: the word, or `none` for OUT_OF_RANGE; the address is used whole (R32, R34). -/
def memRead (m : Memory) (addr : Nat) : Option Word :=
  if addr < Config.memWords then some (m.wordAt addr) else none

/-- `MemWrite(addr, 1, v)`: the memory after the write, or `none` for OUT_OF_RANGE, when no word is written; the
address is used whole (R33, R34). -/
def memWrite (m : Memory) (addr : Nat) (v : Word) : Option Memory :=
  if addr < Config.memWords then some (m.setWord addr v) else none

/-- The memory whose words from address `a` on are the given ones, and every other word 0. -/
def Memory.ofWordsFrom (a : Nat) : List Word → Memory
  | [] => []
  | w :: ws => if w = Config.zeroFill then Memory.ofWordsFrom (a + 1) ws else (a, w) :: Memory.ofWordsFrom (a + 1) ws

/-! ### The ALU (R93): unsigned, modulo 2^16, no carry, borrow or overflow kept -/

/-- The exact sum reduced modulo 2^16 (R91, R93). -/
def aluAdd (a b : Word) : Word := BitVec.ofInt 16 ((a.toNat : Int) + (b.toNat : Int))

/-- The exact difference reduced modulo 2^16 (R92, R93). -/
def aluSub (a b : Word) : Word := BitVec.ofInt 16 ((a.toNat : Int) - (b.toNat : Int))

/-! ### The program counter (R15) -/

/-- `pc <- target` (R94). -/
def State.setPc (s : State) (target : Word) : State := { s with pc := target }

/-- The write of a fetch that found the word `w`: `ir <- w`, then `pc <- (pc + 1) mod 2^16` (R16, R74). -/
def State.latch (s : State) (w : Word) : State := { s with ir := w, pc := s.pc + 1 }

/-! ### Memory writes of the state -/

/-- The state with the memory written. -/
def State.setMem (s : State) (m : Memory) : State := { s with mem := m }

/-! ### Fault entry (R100) and the way out of a fault (R101, R106, R118) -/

/-- `raise C(info)`: `fault <- C` and nothing else (R100). "The block keeps nothing of it", so `info` is no
argument here. There is no return from a fault (R106): only `State.resetFrom` clears it. -/
def State.raise (s : State) (cause : FaultStatus) : State := { s with fault := cause }

/-- `Reset()` from the recorded program `p` (R118). It reads nothing of the state it replaces, and the program
stays recorded. -/
def State.resetFrom (p : Program) : State :=
  { regs := { r0 := 0, r1 := 0, r2 := 0, r3 := 0 }
    pc := 0
    ir := 0
    mem := Memory.ofWordsFrom 0 p
    halted := false
    fault := .none
    program := some p }

end Sys2Proof.Machine
end

