-- ==== Sys2Proof/Machine/Flags.lean ====
section
/-! DEFINITION. The status of the block: the halted flag, the fault codes, the run state. There are no condition codes or
arithmetic flags (R23), so no instruction computes one. -/

namespace Sys2Proof.Machine

/-- `halted <- 1` (R21, R85). -/
def State.setHalted (s : State) : State := { s with halted := true }

/-- The code of a fault status (R22). -/
def FaultStatus.code : FaultStatus → Nat
  | .none => 0
  | .invalidOpcode => 1
  | .fetchOutOfRange => 2
  | .dataOutOfRange => 3

/-- The three run states (R24). -/
inductive RunState where
  | running
  | halted
  | faulted
deriving DecidableEq, Repr

/-- The run state, a function of the status elements (R24). -/
def State.runState (s : State) : RunState :=
  if s.fault ≠ .none then .faulted else if s.halted then .halted else .running

end Sys2Proof.Machine
end

