-- ==== Sys2Proof/Machine/Operands.lean ====
section
/-! DEFINITION. The operand forms: what an instruction's two fields stand for (R12, R49, R50, R51). -/

namespace Sys2Proof.Machine

/-- The register of a 2-bit index (R11, R12). -/
def regOfIndex (index : BitVec 2) : Reg :=
  match index.toNat with
  | 0 => .R0
  | 1 => .R1
  | 2 => .R2
  | _ => .R3

/-- `sel(reg) = reg[1:0]`: the higher bits are ignored (R12, R50). -/
def regSel (reg : RegField) : Reg := regOfIndex (reg.extractLsb' 0 2)

/-- `sel(operand) = operand[1:0]`: the higher bits are ignored (R12, R49). -/
def operandSel (operand : OperandField) : Reg := regOfIndex (operand.extractLsb' 0 2)

/-- `zext_16(operand)`: the LVAL immediate and the JMP target (R49, R51). -/
def zext16 (operand : OperandField) : Word := operand.setWidth 16

/-- The LOAD and STORE word address: the operand as an unsigned number, 0 to 255, used whole (R34, R49, R51). -/
def dataAddress (operand : OperandField) : Nat := operand.toNat

/-- The fetch address: `pc` used whole, 16 bits (R34, R74). -/
def fetchAddress (s : State) : Nat := s.pc.toNat

end Sys2Proof.Machine
end

