-- ==== Sys2Proof/Machine/Arithmetic.lean ====
section
/-! DEFINITION. The arithmetic instructions: ADD, SUB (R91, R92, R93). -/

namespace Sys2Proof.Machine

/-- ADD: `x[rd] <- (x[rd] + x[rs]) mod 2^16`, both reads before the write (R91). -/
def execAdd (reg : RegField) (operand : OperandField) (s : State) : Host.Outcome State Fault Refusal :=
  .next (s.writeReg (regSel reg) (aluAdd (s.readReg (regSel reg)) (s.readReg (operandSel operand))))

/-- SUB: `x[rd] <- (x[rd] - x[rs]) mod 2^16`, both reads before the write (R92). -/
def execSub (reg : RegField) (operand : OperandField) (s : State) : Host.Outcome State Fault Refusal :=
  .next (s.writeReg (regSel reg) (aluSub (s.readReg (regSel reg)) (s.readReg (operandSel operand))))

end Sys2Proof.Machine
end

