-- ==== Sys2Proof/Machine/ControlTransfer.lean ====
section
/-! DEFINITION. The control transfer instruction: JMP, the only one (R94, R95). -/

namespace Sys2Proof.Machine

/-- JMP: `pc <- zext_16(target)`, over the `pc + 1` of the fetch; a target of 64 to 255 is accepted, and the next
fetch faults (R94). -/
def execJmp (_reg : RegField) (target : OperandField) (s : State) : Host.Outcome State Fault Refusal :=
  .next (s.setPc (zext16 target))

end Sys2Proof.Machine
end

