-- ==== Sys2Proof/Machine/DataMovement.lean ====
section
/-! DEFINITION. The data movement instructions: LVAL, LOAD, STORE, MOV (R87 to R90). -/

namespace Sys2Proof.Machine

/-- LVAL: `x[rd] <- zext_16(imm8)` (R87). -/
def execLval (reg : RegField) (imm8 : OperandField) (s : State) : Host.Outcome State Fault Refusal :=
  .next (s.writeReg (regSel reg) (zext16 imm8))

/-- LOAD: `x[rd] <- mem[addr8]`, or DATA_OUT_OF_RANGE with no register written (R88, R99). -/
def execLoad (reg : RegField) (addr8 : OperandField) (s : State) : Host.Outcome State Fault Refusal :=
  match memRead s.mem (dataAddress addr8) with
  | some w => .next (s.writeReg (regSel reg) w)
  | none => .next (s.raise .dataOutOfRange)

/-- STORE: `mem[addr8] <- x[rs]`, or DATA_OUT_OF_RANGE with no memory word written (R89, R99). -/
def execStore (reg : RegField) (addr8 : OperandField) (s : State) : Host.Outcome State Fault Refusal :=
  match memWrite s.mem (dataAddress addr8) (s.readReg (regSel reg)) with
  | some m => .next (s.setMem m)
  | none => .next (s.raise .dataOutOfRange)

/-- MOV: `x[rd] <- x[rs]` (R90). -/
def execMov (reg : RegField) (operand : OperandField) (s : State) : Host.Outcome State Fault Refusal :=
  .next (s.writeReg (regSel reg) (s.readReg (operandSel operand)))

end Sys2Proof.Machine
end

