-- ==== Sys2Proof/Machine/System.lean ====
section
/-! DEFINITION. The system instruction: HALT, the only one (R85, R86). -/

namespace Sys2Proof.Machine

/-- HALT: `halted <- 1`; no other effect, whatever the two fields hold (R85). -/
def execHalt (_reg : RegField) (_operand : OperandField) (s : State) : Host.Outcome State Fault Refusal :=
  .next s.setHalted

end Sys2Proof.Machine
end

