-- ==== Sys2Proof/Machine/Dispatch.lean ====
section
/-! DEFINITION. The dispatch of the execute phase on the decoded instruction (R76). The state is the one after the fetch
phase: `ir` holds the word and `pc` its address plus one (R17, R74). -/

namespace Sys2Proof.Machine

def exec (i : Instr) (s : State) : Host.Outcome State Fault Refusal :=
  match i with
  | .halt reg operand => Sys2Proof.Machine.execHalt reg operand s
  | .lval reg imm8 => Sys2Proof.Machine.execLval reg imm8 s
  | .load reg addr8 => Sys2Proof.Machine.execLoad reg addr8 s
  | .store reg addr8 => Sys2Proof.Machine.execStore reg addr8 s
  | .add reg operand => Sys2Proof.Machine.execAdd reg operand s
  | .sub reg operand => Sys2Proof.Machine.execSub reg operand s
  | .jmp reg target => Sys2Proof.Machine.execJmp reg target s
  | .mov reg operand => Sys2Proof.Machine.execMov reg operand s

end Sys2Proof.Machine
end

