-- ==== Sys2Proof/Machine/Cycle.lean ====
section
/-! DEFINITION. The fetch-decode-execute cycle and its phases (R73 to R84). -/

namespace Sys2Proof.Machine

/-- The fetch phase: reads the word at `pc`, latches it and advances `pc`, or raises FETCH_OUT_OF_RANGE with `ir` and
`pc` not written (R74, R98). -/
def fetch (s : State) : State :=
  match memRead s.mem (fetchAddress s) with
  | some w => s.latch w
  | none => s.raise .fetchOutOfRange

/-- The decode phase and the execute phase on the current `ir` (R75, R76). An opcode of 8 to 15 raises INVALID_OPCODE
and nothing is written (R97). -/
def execute (s : State) : Host.Outcome State Fault Refusal :=
  match decode s.ir with
  | .ok i => exec i s
  | .error (.invalidOpcode _) => .next (s.raise .invalidOpcode)

/-- `Cycle()`: a fetch, then, unless the fetch raised a fault, a decode and an execute (R73). When the block is Halted or
Faulted a cycle has no step: "`CYCLE` changes nothing, and no fetch and no execute happens" (R78). -/
def cycle (s : State) : Host.Outcome State Fault Refusal :=
  match s.runState with
  | .running =>
    match (fetch s).fault with
    | .none => execute (fetch s)
    | _ => .next (fetch s)
  | _ => .next s

/-- The `FETCH` command: the fetch phase alone; no step when Halted or Faulted (R80, R81, R82). -/
def fetchPhase (s : State) : Host.Outcome State Fault Refusal :=
  match s.runState with
  | .running => .next (fetch s)
  | _ => .next s

/-- The `EXECUTE` command: decode and execute on the current `ir`, whatever came before; no step when Halted or Faulted
(R81, R82). -/
def executePhase (s : State) : Host.Outcome State Fault Refusal :=
  match s.runState with
  | .running => execute s
  | _ => .next s

/-- The `CYCLE` command: before the first accepted load there is no program and no run (R117, log 1). -/
def cycleCommand (s : State) : Host.Outcome State Fault Refusal :=
  match s.program with
  | some _ => cycle s
  | none => .fault .noProgram

/-- The state made ready for its next step to run the word `w`: a program is recorded and the block Running at a fetch
address that exists, with `w` in memory there. Where the state is so already only that memory word changes
(DESIGN CHOICE, log 12: safe). -/
def State.placeNextWord (s : State) (w : Word) : State :=
  let pc : Word := if s.pc.toNat < Config.memWords then s.pc else 0
  { s with
    pc := pc
    mem := s.mem.setWord pc.toNat w
    halted := false
    fault := .none
    program := some (s.program.getD []) }

end Sys2Proof.Machine
end

