-- ==== Sys2Proof/Machine/Step.lean ====
section
/-! DEFINITION. One step of the machine is one `CYCLE` command, and the placing of an instruction for the next step. -/

namespace Sys2Proof.Machine

/-- One step: one `CYCLE` command (R73, R79). -/
def step (s : State) : Host.Outcome State Fault Refusal := cycleCommand s

/-- `s` with the instruction word, given as the opcode table numbers its bits, where the next step fetches (DESIGN CHOICE, log 12: safe). -/
def State.withFetchWord (s : State) (nbits w : Nat) : State := s.placeNextWord (tableWord nbits w)

end Sys2Proof.Machine
end

