-- ==== Sys2Proof/Machine/Assembler.lean ====
section
/-! DEFINITION. The assembly language: from a text to a program image (R59 to R72). The assembler is software outside the
block; its syntax and its encoding are in scope (`00_scope.md` section 3.2). It keeps no state (R69). A text is its list of
characters (DESIGN CHOICE, log 8: safe). -/

namespace Sys2Proof.Machine

/-- What makes a line a fatal error (R67). -/
inductive AsmReason where
  /-- No mnemonic of R62. -/
  | unknownMnemonic (token : List Char)
  /-- Not one of the register tokens `R0` to `R3` where a register is expected (R63). -/
  | badRegister (token : List Char)
  /-- Not a decimal number of 0 to 255 where a number is expected (R64). -/
  | badNumber (token : List Char)
  /-- An address argument of 64 to 255 (R65). -/
  | addressOutOfRange (token : List Char)
  /-- HALT takes 0 arguments, JMP 1, the others 2 (R67). -/
  | wrongArgumentCount (found : Nat)
deriving DecidableEq, Repr

/-- The report of the first fatal error: the line, counted from 1, and what is wrong in it (R67, log 8). -/
structure AsmError where
  line : Nat
  reason : AsmReason
deriving DecidableEq, Repr

/-- Whitespace is a space or a tab (R61). -/
def isBlankChar (c : Char) : Bool := c == ' ' || c == '\t'

/-- A text without the whitespace at its start. -/
def skipBlanks : List Char → List Char
  | [] => []
  | c :: cs => if isBlankChar c then skipBlanks cs else c :: cs

/-- A text without the whitespace at its two ends. -/
def trimBlanks (cs : List Char) : List Char := (skipBlanks (skipBlanks cs).reverse).reverse

/-- The pieces of a text between the separators. -/
def splitAtChar (sep : Char) : List Char → List (List Char)
  | [] => [[]]
  | c :: cs =>
    if c = sep then [] :: splitAtChar sep cs
    else
      match splitAtChar sep cs with
      | [] => [[c]]
      | p :: ps => (c :: p) :: ps

/-- A line without a carriage return at its end (R59; DEDUCED that it is one, log 11: unsafe for a line with two). -/
def dropCarriageReturn (line : List Char) : List Char :=
  match line.reverse with
  | '\r' :: rest => rest.reverse
  | _ => line

/-- The lines of a text (R59). -/
def sourceLines (source : List Char) : List (List Char) := (splitAtChar '\n' source).map dropCarriageReturn

/-- The mnemonics, exactly as written, in upper case (R62). -/
def mnemonicOf (token : List Char) : Option Opcode :=
  if token = ['H', 'A', 'L', 'T'] then some .halt
  else if token = ['L', 'V', 'A', 'L'] then some .lval
  else if token = ['L', 'O', 'A', 'D'] then some .load
  else if token = ['S', 'T', 'O', 'R', 'E'] then some .store
  else if token = ['A', 'D', 'D'] then some .add
  else if token = ['S', 'U', 'B'] then some .sub
  else if token = ['J', 'M', 'P'] then some .jmp
  else if token = ['M', 'O', 'V'] then some .mov
  else none

/-- A register argument: exactly one of `R0`, `R1`, `R2`, `R3`, and its index (R63). -/
def registerIndex (token : List Char) : Except AsmReason Nat :=
  if token = ['R', '0'] then .ok 0
  else if token = ['R', '1'] then .ok 1
  else if token = ['R', '2'] then .ok 2
  else if token = ['R', '3'] then .ok 3
  else .error (.badRegister token)

/-- The value of a decimal digit (R61). -/
def digitValue (c : Char) : Option Nat :=
  if 48 ≤ c.toNat ∧ c.toNat ≤ 57 then some (c.toNat - 48) else none

/-- The value of digits that follow digits of value `acc`; `none` where a character is no digit. -/
def digitsFrom (acc : Nat) : List Char → Option Nat
  | [] => some acc
  | c :: cs =>
    match digitValue c with
    | some d => digitsFrom (10 * acc + d) cs
    | none => none

/-- A numeric argument: one or more decimal digits of value 0 to 255 (R61, R64). Leading zeros are allowed
(DEDUCED, log 10: unsafe for a token that has them). -/
def numberArgument (token : List Char) : Except AsmReason Nat :=
  match token with
  | [] => .error (.badNumber token)
  | _ :: _ =>
    match digitsFrom 0 token with
    | some n => if n ≤ 255 then .ok n else .error (.badNumber token)
    | none => .error (.badNumber token)

/-- An address argument: a numeric argument below 64 (R65). -/
def addressArgument (token : List Char) : Except AsmReason Nat :=
  match numberArgument token with
  | .ok n => if n < Config.memWords then .ok n else .error (.addressOutOfRange token)
  | .error r => .error r

/-- The instruction of an operation whose reg field is a register and whose operand field is a second argument. -/
def twoArguments (op : Opcode) (second : List Char → Except AsmReason Nat) (args : List (List Char)) :
    Except AsmReason Instr :=
  match args with
  | [a, b] =>
    match registerIndex a with
    | .ok d =>
      match second b with
      | .ok n => .ok (instrOf op (BitVec.ofNat 4 d) (BitVec.ofNat 8 n))
      | .error r => .error r
    | .error r => .error r
  | _ => .error (.wrongArgumentCount args.length)

/-- The instruction of a mnemonic with its arguments (R62, R67). Of several errors the first from the left is reported
(DESIGN CHOICE, log 9: unsafe as to which one). -/
def assembleInstr (op : Opcode) (args : List (List Char)) : Except AsmReason Instr :=
  match op with
  | .halt =>
    match args with
    | [] => .ok (.halt 0 0)
    | _ => .error (.wrongArgumentCount args.length)
  | .lval => twoArguments .lval numberArgument args
  | .load => twoArguments .load addressArgument args
  | .store => twoArguments .store addressArgument args
  | .add => twoArguments .add registerIndex args
  | .sub => twoArguments .sub registerIndex args
  | .jmp =>
    match args with
    | [a] =>
      match addressArgument a with
      | .ok n => .ok (.jmp 0 (BitVec.ofNat 8 n))
      | .error r => .error r
    | _ => .error (.wrongArgumentCount args.length)
  | .mov => twoArguments .mov registerIndex args

/-- The comma-separated arguments, without the whitespace around them (R61). -/
def argumentsOf (text : List Char) : List (List Char) :=
  match trimBlanks text with
  | [] => []
  | c :: cs => (splitAtChar ',' (c :: cs)).map trimBlanks

/-- A text cut before its first whitespace (the mnemonic) and the rest (R61). -/
def cutAtBlank : List Char → List Char × List Char
  | [] => ([], [])
  | c :: cs => if isBlankChar c then ([], c :: cs) else (c :: (cutAtBlank cs).1, (cutAtBlank cs).2)

/-- One instruction line, at least one character of it not whitespace (R61). -/
def assembleInstrText (text : List Char) : Except AsmReason Instr :=
  match mnemonicOf (cutAtBlank text).1 with
  | some op => assembleInstr op (argumentsOf (cutAtBlank text).2)
  | none => .error (.unknownMnemonic (cutAtBlank text).1)

/-- One line: a comment when its first character is `;`, blank when it holds only whitespace, else one instruction
(R59, R60). -/
def assembleLine (line : List Char) : Except AsmReason (Option Instr) :=
  match line with
  | ';' :: _ => .ok none
  | _ =>
    match trimBlanks line with
    | [] => .ok none
    | c :: cs =>
      match assembleInstrText (c :: cs) with
      | .ok i => .ok (some i)
      | .error r => .error r

/-- The instructions of lines counted from `n`, in line order; the first fatal error stops the run and nothing is
produced (R66, R67). -/
def assembleLines (n : Nat) : List (List Char) → Except AsmError (List Instr)
  | [] => .ok []
  | line :: rest =>
    match assembleLine line with
    | .error r => .error { line := n, reason := r }
    | .ok none => assembleLines (n + 1) rest
    | .ok (some i) =>
      match assembleLines (n + 1) rest with
      | .ok is => .ok (i :: is)
      | .error e => .error e

/-- The instructions of a source text. -/
def assembleInstrs (source : List Char) : Except AsmError (List Instr) := assembleLines 1 (sourceLines source)

/-- The program image of instructions: one big-endian word each (R66). -/
def imageOf : List Instr → List Byte
  | [] => []
  | i :: is => bytesOfWord (encode i) ++ imageOf is

/-- The assembler: the program image of a source text, or the report of its first fatal error (R59 to R72). The number
of words is not checked; the load does that (R66). -/
def assemble (source : List Char) : Except AsmError (List Byte) :=
  match assembleInstrs source with
  | .ok is => .ok (imageOf is)
  | .error e => .error e

end Sys2Proof.Machine
end

