-- ==== Sys2Proof/Machine/Commands.lean ====
section
/-! DEFINITION. The host's commands: program load, reset, CYCLE, FETCH, EXECUTE (R28, R114 to R118), and what the host
reads after a fault (R104). -/

namespace Sys2Proof.Machine

/-- Why a load refuses a program image; it is no fault of the block, and nothing changes (R114, R117). -/
inductive LoadRefusal where
  /-- The image has an odd number of bytes (R116). -/
  | oddLength
  /-- The program has more than 64 words; it is never truncated (R115). -/
  | tooLong
deriving DecidableEq, Repr

/-- The big-endian words of an image, or `none` for an odd number of bytes (R116). -/
def imageWords : List Byte → Option (List Word)
  | [] => some []
  | [_] => none
  | hi :: lo :: rest => (imageWords rest).map (wordOfBytes hi lo :: ·)

/-- The check of a load: the program of an image that is accepted, or the reason for the refusal (R115, R116).
Where both reasons hold the odd length is named (DESIGN CHOICE, log 7: unsafe as to the name only). -/
def checkImage (image : List Byte) : Except LoadRefusal Program :=
  match imageWords image with
  | none => .error .oddLength
  | some p => if p.length ≤ Config.maxProgramWords then .ok p else .error .tooLong

/-- The `LOAD(image)` command: an accepted program is recorded and the block reset from it; a refused one changes
nothing (R117). -/
def loadImage (image : List Byte) (s : State) : Host.Outcome State Fault Refusal :=
  match checkImage image with
  | .ok p => .next (State.resetFrom p)
  | .error _ => .next s

/-- The `RESET` command: reset to the recorded program, from every run state (R118). -/
def resetCommand (s : State) : Host.Outcome State Fault Refusal :=
  match s.program with
  | some p => .next (State.resetFrom p)
  | none => .fault .noProgram

/-- The `FETCH` command (R80, R81); before the first accepted load it has no step (R117, log 1). -/
def fetchCommand (s : State) : Host.Outcome State Fault Refusal :=
  match s.program with
  | some _ => fetchPhase s
  | none => .fault .noProgram

/-- The `EXECUTE` command (R80, R81); before the first accepted load it has no step (R117, log 1). -/
def executeCommand (s : State) : Host.Outcome State Fault Refusal :=
  match s.program with
  | some _ => executePhase s
  | none => .fault .noProgram

/-- The commands of the host, and there are no others (R28). -/
inductive Command where
  | load (image : List Byte)
  | reset
  | cycle
  | fetch
  | execute
deriving DecidableEq, Repr

/-- What one command does; each completes before the next one starts (R28). -/
def runCommand (c : Command) (s : State) : Host.Outcome State Fault Refusal :=
  match c with
  | .load image => loadImage image s
  | .reset => resetCommand s
  | .cycle => cycleCommand s
  | .fetch => fetchCommand s
  | .execute => executeCommand s

/-- The commands of a list, one after the other (R28). -/
def runCommands : List Command → State → Host.Outcome State Fault Refusal
  | [], s => .next s
  | c :: cs, s =>
    match runCommand c s with
    | .next t => runCommands cs t
    | .fault r => .fault r
    | .refused r => .refused r

/-- The host's duty on phases: exactly one `EXECUTE` after each `FETCH` and no other command between them, and no
`EXECUTE` elsewhere (R82, R124). A list that stops after a `FETCH` owes its `EXECUTE` still (DESIGN CHOICE, log 13: safe). -/
def hostKeepsContract : List Command → Bool
  | [] => true
  | .fetch :: .execute :: cs => hostKeepsContract cs
  | .fetch :: _ => false
  | .execute :: _ => false
  | .load _ :: cs => hostKeepsContract cs
  | .reset :: cs => hostKeepsContract cs
  | .cycle :: cs => hostKeepsContract cs

/-- A list of commands with each `FETCH`, `EXECUTE` pair written as one `CYCLE` (R80). -/
def pairsAsCycles : List Command → List Command
  | .fetch :: .execute :: cs => .cycle :: pairsAsCycles cs
  | c :: cs => c :: pairsAsCycles cs
  | [] => []

/-- What the host can find of a fault (R104). -/
inductive FaultReport where
  /-- The word, with an opcode of 8 to 15, and its address. -/
  | invalidOpcode (word : Word) (address : Word)
  /-- The address that could not be fetched. -/
  | fetchOutOfRange (address : Word)
  /-- The LOAD or STORE word, its address, and the data address that could not be accessed. -/
  | dataOutOfRange (word : Word) (address : Word) (dataAddress : OperandField)
deriving DecidableEq, Repr

/-- The cause of a fault read from the state alone: `fault`, `pc` and `ir` (R104). -/
def State.faultReport (s : State) : Option FaultReport :=
  match s.fault with
  | .none => none
  | .invalidOpcode => some (.invalidOpcode s.ir (s.pc - 1))
  | .fetchOutOfRange => some (.fetchOutOfRange s.pc)
  | .dataOutOfRange => some (.dataOutOfRange s.ir (s.pc - 1) (decodeFields s.ir).operand)

end Sys2Proof.Machine
end

