-- ==== Sys2Proof/Safety.lean ====
section
/-! DEFINITION. The terms of the claims: a legal state, an ended run and its result, what a step leaves unchanged, what a
cycle may read, and which fault it raises. -/

namespace Sys2Proof.Machine

/-- The invariant of the block: memory is canonical (R30), no program of more than 64 words is recorded (R115), `pc`
stays in 0 to 255 (R18, R98), and Halted and Faulted exclude each other (R24). -/
structure State.Legal (s : State) : Prop where
  memCanonical : Memory.wf s.mem
  programFits : ∀ p ∈ s.program, p.length ≤ Config.maxProgramWords
  pcBound : s.pc.toNat ≤ 255
  oneEnd : ¬ (s.halted = true ∧ s.fault ≠ .none)

/-- The run has ended: no cycle has a step (R78, R126). -/
def State.Ended (s : State) : Prop := s.runState ≠ .running

/-- The block is Running with a program recorded: a cycle has a step (R73, R117). -/
def State.CanCycle (s : State) : Prop := s.runState = .running ∧ s.program ≠ none

/-- The run from `s` ends in Halted after `k` cycles, with the result `t`, the whole state at that point (R126). -/
def State.HaltsAfter (s : State) (k : Nat) (t : State) : Prop :=
  runCommands (List.replicate k .cycle) s = .next t ∧ t.runState = .halted

/-- The state elements of R10, one memory word and one register at a time, and the recorded program of R117. -/
inductive Element where
  | reg (n : Nat)
  | pc
  | ir
  | word (a : Nat)
  | halted
  | fault
  | program
deriving DecidableEq, Repr

/-- Every element not named in `changed` is the same in `t` as in `s`; memory is compared by the read of each word. -/
structure State.UnchangedBut (s t : State) (changed : List Element) : Prop where
  reg : ∀ n < 4, .reg n ∉ changed → t.x n = s.x n
  pc : .pc ∉ changed → t.pc = s.pc
  ir : .ir ∉ changed → t.ir = s.ir
  word : ∀ a, .word a ∉ changed → t.mem.wordAt a = s.mem.wordAt a
  halted : .halted ∉ changed → t.halted = s.halted
  fault : .fault ∉ changed → t.fault = s.fault
  program : .program ∉ changed → t.program = s.program

/-- The one element an instruction writes besides `ir` and `pc` (R77). -/
def writtenElement : Instr → Element
  | .halt _ _ => .halted
  | .lval reg _ => .reg (reg.toNat % 4)
  | .load reg _ => .reg (reg.toNat % 4)
  | .store _ addr8 => .word addr8.toNat
  | .add reg _ => .reg (reg.toNat % 4)
  | .sub reg _ => .reg (reg.toNat % 4)
  | .jmp _ _ => .pc
  | .mov reg _ => .reg (reg.toNat % 4)

/-- The address a LOAD or a STORE accesses (R88, R89). -/
def accessedAddress : Instr → Option Nat
  | .halt _ _ => none
  | .lval _ _ => none
  | .load _ addr8 => some addr8.toNat
  | .store _ addr8 => some addr8.toNat
  | .add _ _ => none
  | .sub _ _ => none
  | .jmp _ _ => none
  | .mov _ _ => none

/-- The fault a cycle from a Running state raises: the checks in the order of R102, on numbers alone. -/
def State.cycleFault (s : State) : FaultStatus :=
  let w := (s.mem.wordAt s.pc.toNat).toNat
  if 64 ≤ s.pc.toNat then .fetchOutOfRange
  else if 8 ≤ w / 4096 then .invalidOpcode
  else if (w / 4096 = 2 ∨ w / 4096 = 3) ∧ 64 ≤ w % 256 then .dataOutOfRange
  else .none

/-- The addresses a cycle from `s` may read: the fetch address and, for a LOAD, its operand (R31, R83). -/
def State.cycleReads (s : State) (a : Nat) : Prop :=
  a = s.pc.toNat ∨
    ∃ reg addr8, decode (s.mem.wordAt s.pc.toNat) = .ok (.load reg addr8) ∧ a = addr8.toNat

/-- The memory address that a word stores to when it is executed: the operand of a STORE whose operand is below 64 (R52, R89). -/
def storeAddress (w : Word) : Option Nat :=
  if w.toNat / 4096 = 3 ∧ w.toNat % 256 < 64 then some (w.toNat % 256) else none

/-- The memory address that a command of the phases stores to from `s`: CYCLE executes the word at `pc`, EXECUTE the word in
`ir`, FETCH none, and a block that is not Running takes no step (R39, R73, R78, R81). LOAD and RESET store to no one address:
they build all of memory anew (R118). -/
def State.storedAddress (s : State) (c : Command) : Option Nat :=
  match s.runState with
  | .running =>
    match c with
    | .cycle => if s.pc.toNat < 64 then storeAddress (s.mem.wordAt s.pc.toNat) else none
    | .execute => storeAddress s.ir
    | .fetch => none
    | .load _ => none
    | .reset => none
  | .halted => none
  | .faulted => none

/-- No command of the list stores to address `a` on the way from `s`. -/
def State.NeverStoresTo (s : State) (a : Nat) (cs : List Command) : Prop :=
  ∀ (before after : List Command) (c : Command) (v : State), cs = before ++ c :: after →
    runCommands before s = .next v → v.storedAddress c ≠ some a

/-- The text of register `d` (R63). -/
def registerText (d : Nat) : List Char := ['R', Char.ofNat (48 + d)]

/-- Whitespace only: spaces and tabs (R61). -/
def Blank (text : List Char) : Prop := ∀ c ∈ text, c = ' ' ∨ c = '\t'

/-- A text that can stand as one argument of a line: not empty, with no whitespace and no comma in it (R61). -/
def ArgumentToken (text : List Char) : Prop := text ≠ [] ∧ ∀ c ∈ text, c ≠ ' ' ∧ c ≠ '\t' ∧ c ≠ ','

/-- The line assembles to one instruction, whose word is `encode(code, reg, operand)` (R48, R62). -/
def LineGivesWord (line : List Char) (code reg operand : Nat) : Prop :=
  ∃ i, assembleLine line = .ok (some i) ∧
    encode i = encodeFields
      { opcode := BitVec.ofNat 4 code, reg := BitVec.ofNat 4 reg, operand := BitVec.ofNat 8 operand }

end Sys2Proof.Machine
end

