-- ==== Sys2Proof/Certificates/Slice0/Obligations.lean ====
section
/-! DEFINITION. The statements for the provers. Each names the rule of spec/ it formalises, or says that it is about the
model's own form. -/

section
open Sys2Proof Sys2Proof.Machine

/-! ### Encoding -/

/-- R57: packing three fields into a word and splitting it again gives the fields back, masked to their widths. -/
def Obligations.FieldsOfThePackedWord : Prop :=
  ∀ op reg operand : Nat, op < 16 → reg < 16 → operand < 256 →
    let f := decodeFields (encodeFields
      { opcode := BitVec.ofNat 4 op, reg := BitVec.ofNat 4 reg, operand := BitVec.ofNat 8 operand })
    f.opcode.toNat = op ∧ f.reg.toNat = reg &&& 0xF ∧ f.operand.toNat = operand &&& 0xFF

/-- Every instruction, at every value of its fields, is what its own word decodes to (R48, R52, R57). -/
def Obligations.DecodeOfEncodeIsTheInstruction : Prop :=
  ∀ i : Instr, decode (encode i) = .ok i

/-- Every word that decodes is the word of its instruction, so no bit of it is dropped (R47, R48, R52). -/
def Obligations.EncodeOfDecodeIsTheWord : Prop :=
  ∀ (w : Word) (i : Instr), decode w = .ok i → encode i = w

/-- R54: every word whose opcode field is 8 to 15 is an invalid instruction, whatever its other bits; and when the execute
phase meets one it raises INVALID_OPCODE and writes nothing else. R56: no other word is. -/
def Obligations.InvalidInstructionsAreTheUpperHalf : Prop :=
  (∀ w : Word, (∃ r, decode w = .error r) ↔ 8 ≤ w.toNat / 4096) ∧
  (∀ w : Word, (∃ r, decode w = .error r) ↔ ¬ ∃ i, decode w = .ok i) ∧
  (∀ s : State, 8 ≤ s.ir.toNat / 4096 →
    ∃ t, execute s = .next t ∧ t.fault = .invalidOpcode ∧ s.UnchangedBut t [.fault])

/-- Words of the spec's own vectors (W2, W3, VD4, VD9, VA5, VJ1, VD13, VH2, VI1) decode to the instructions they stand for. -/
def Obligations.KnownWordsDecode : Prop :=
  decode 0x0FFF = .ok (.halt 15 255) ∧ decode 0x13C8 = .ok (.lval 3 200) ∧ decode 0x2114 = .ok (.load 1 20) ∧
  decode 0x3215 = .ok (.store 2 21) ∧ decode 0x4C05 = .ok (.add 12 5) ∧ decode 0x5001 = .ok (.sub 0 1) ∧
  decode 0x6010 = .ok (.jmp 0 16) ∧ decode 0x7203 = .ok (.mov 2 3) ∧ decode 0x8000 = .error (.invalidOpcode 8)

/-- R12: a field that selects a register counts by its low 2 bits alone; and no other bit that R55 lists as ignored has an
effect: two instructions of one row that differ only in such bits do exactly the same thing. -/
def Obligations.IgnoredBitsDoNothing : Prop :=
  (∀ r r' o o' s, exec (.halt r o) s = exec (.halt r' o') s) ∧
  (∀ r r' n s, r.toNat % 4 = r'.toNat % 4 → exec (.lval r n) s = exec (.lval r' n) s) ∧
  (∀ r r' a s, r.toNat % 4 = r'.toNat % 4 → exec (.load r a) s = exec (.load r' a) s) ∧
  (∀ r r' a s, r.toNat % 4 = r'.toNat % 4 → exec (.store r a) s = exec (.store r' a) s) ∧
  (∀ r r' o o' s, r.toNat % 4 = r'.toNat % 4 → o.toNat % 4 = o'.toNat % 4 →
    exec (.add r o) s = exec (.add r' o') s) ∧
  (∀ r r' o o' s, r.toNat % 4 = r'.toNat % 4 → o.toNat % 4 = o'.toNat % 4 →
    exec (.sub r o) s = exec (.sub r' o') s) ∧
  (∀ r r' n s, exec (.jmp r n) s = exec (.jmp r' n) s) ∧
  (∀ r r' o o' s, r.toNat % 4 = r'.toNat % 4 → o.toNat % 4 = o'.toNat % 4 →
    exec (.mov r o) s = exec (.mov r' o') s)

/-- The canonical form of every instruction is well-formed and does what the instruction does, and the well-formed
instructions are their own canonical form (R52, R55; that this is what well-formed means is the model's choice, log 6). -/
def Obligations.CanonicalFormIsWellFormedAndEquivalent : Prop :=
  ∀ i : Instr, WellFormed (canonical i) = true ∧ (WellFormed i = true ↔ canonical i = i) ∧
    ∀ s, exec (canonical i) s = exec i s

/-! ### The eight instructions: encoding, completion, result and frame. The state is the one after the fetch. -/

/-- R85: a word of opcode 0 is a HALT; a HALT that is executed sets `halted` and changes nothing else, and after it no
further cycle changes anything; and a cycle of any other word does not set `halted`. -/
def Obligations.HaltSetsTheHaltedFlagOnly : Prop :=
  (∀ w : Word, w.toNat / 4096 = 0 →
    decode w = .ok (.halt (BitVec.ofNat 4 (w.toNat / 256)) (BitVec.ofNat 8 w.toNat))) ∧
  (∀ reg operand s, ∃ t, exec (.halt reg operand) s = .next t ∧ t.halted = true ∧ s.UnchangedBut t [.halted] ∧
    (t.program ≠ none → step t = .next t)) ∧
  (∀ s t, step s = .next t → s.halted = false → t.halted = true →
    (s.mem.wordAt s.pc.toNat).toNat / 4096 = 0)

/-- R87: a word of opcode 1 is an LVAL; it writes the zero-extended operand to `x[reg[1:0]]` and nothing else. -/
def Obligations.LvalWritesTheZeroExtendedImmediate : Prop :=
  (∀ w : Word, w.toNat / 4096 = 1 →
    decode w = .ok (.lval (BitVec.ofNat 4 (w.toNat / 256)) (BitVec.ofNat 8 w.toNat))) ∧
  (∀ (reg : RegField) (imm8 : OperandField) (s : State), ∃ t, exec (.lval reg imm8) s = .next t ∧
    (t.x (reg.toNat % 4)).toNat = imm8.toNat ∧ s.UnchangedBut t [.reg (reg.toNat % 4)])

/-- R88: a word of opcode 2 is a LOAD; below address 64 it writes the memory word to `x[reg[1:0]]` and nothing else; from
64 on it raises DATA_OUT_OF_RANGE and writes nothing else. -/
def Obligations.LoadReadsTheAddressedWordOrFaults : Prop :=
  (∀ w : Word, w.toNat / 4096 = 2 →
    decode w = .ok (.load (BitVec.ofNat 4 (w.toNat / 256)) (BitVec.ofNat 8 w.toNat))) ∧
  (∀ (reg : RegField) (addr8 : OperandField) (s : State), addr8.toNat < 64 →
    ∃ t, exec (.load reg addr8) s = .next t ∧ t.x (reg.toNat % 4) = s.mem.wordAt (dataAddress addr8) ∧
      s.UnchangedBut t [.reg (reg.toNat % 4)]) ∧
  (∀ (reg : RegField) (addr8 : OperandField) (s : State), 64 ≤ addr8.toNat →
    ∃ t, exec (.load reg addr8) s = .next t ∧ t.fault = .dataOutOfRange ∧ s.UnchangedBut t [.fault])

/-- R89: a word of opcode 3 is a STORE; below address 64 it writes `x[reg[1:0]]` to the memory word and nothing else; from
64 on it raises DATA_OUT_OF_RANGE and writes nothing else. -/
def Obligations.StoreWritesTheAddressedWordOrFaults : Prop :=
  (∀ w : Word, w.toNat / 4096 = 3 →
    decode w = .ok (.store (BitVec.ofNat 4 (w.toNat / 256)) (BitVec.ofNat 8 w.toNat))) ∧
  (∀ (reg : RegField) (addr8 : OperandField) (s : State), addr8.toNat < 64 →
    ∃ t, exec (.store reg addr8) s = .next t ∧ t.mem.wordAt (dataAddress addr8) = s.x (reg.toNat % 4) ∧
      s.UnchangedBut t [.word (dataAddress addr8)]) ∧
  (∀ (reg : RegField) (addr8 : OperandField) (s : State), 64 ≤ addr8.toNat →
    ∃ t, exec (.store reg addr8) s = .next t ∧ t.fault = .dataOutOfRange ∧ s.UnchangedBut t [.fault])

/-- R90: a word of opcode 7 is a MOV; it copies `x[operand[1:0]]` to `x[reg[1:0]]` and changes nothing else. -/
def Obligations.MovCopiesTheRegister : Prop :=
  (∀ w : Word, w.toNat / 4096 = 7 →
    decode w = .ok (.mov (BitVec.ofNat 4 (w.toNat / 256)) (BitVec.ofNat 8 w.toNat))) ∧
  (∀ (reg : RegField) (operand : OperandField) (s : State), ∃ t, exec (.mov reg operand) s = .next t ∧
    t.x (reg.toNat % 4) = s.x (operand.toNat % 4) ∧ s.UnchangedBut t [.reg (reg.toNat % 4)])

/-- R91: a word of opcode 4 is an ADD; it writes the sum modulo 2^16 to `x[reg[1:0]]`, both reads being of the values
before the write, and changes nothing else. -/
def Obligations.AddWritesTheSumModulo : Prop :=
  (∀ w : Word, w.toNat / 4096 = 4 →
    decode w = .ok (.add (BitVec.ofNat 4 (w.toNat / 256)) (BitVec.ofNat 8 w.toNat))) ∧
  (∀ (reg : RegField) (operand : OperandField) (s : State), ∃ t, exec (.add reg operand) s = .next t ∧
    (t.x (reg.toNat % 4)).toNat = ((s.x (reg.toNat % 4)).toNat + (s.x (operand.toNat % 4)).toNat) % 2 ^ 16 ∧
    s.UnchangedBut t [.reg (reg.toNat % 4)])

/-- R92: a word of opcode 5 is a SUB; it writes the non-negative remainder modulo 2^16 of `x[reg[1:0]]` minus
`x[operand[1:0]]` to `x[reg[1:0]]` and changes nothing else. -/
def Obligations.SubWritesTheDifferenceModulo : Prop :=
  (∀ w : Word, w.toNat / 4096 = 5 →
    decode w = .ok (.sub (BitVec.ofNat 4 (w.toNat / 256)) (BitVec.ofNat 8 w.toNat))) ∧
  (∀ (reg : RegField) (operand : OperandField) (s : State), ∃ t, exec (.sub reg operand) s = .next t ∧
    ((t.x (reg.toNat % 4)).toNat : Int) =
      (((s.x (reg.toNat % 4)).toNat : Int) - ((s.x (operand.toNat % 4)).toNat : Int)) % 2 ^ 16 ∧
    s.UnchangedBut t [.reg (reg.toNat % 4)])

/-- R94: a word of opcode 6 is a JMP; it writes the zero-extended operand to `pc` and changes nothing else; a target of 64
to 255 is accepted, and the next cycle raises FETCH_OUT_OF_RANGE with `pc` equal to the target. -/
def Obligations.JmpReplacesThePc : Prop :=
  (∀ w : Word, w.toNat / 4096 = 6 →
    decode w = .ok (.jmp (BitVec.ofNat 4 (w.toNat / 256)) (BitVec.ofNat 8 w.toNat))) ∧
  (∀ (reg : RegField) (target : OperandField) (s : State), ∃ t, exec (.jmp reg target) s = .next t ∧
    t.pc.toNat = target.toNat ∧ s.UnchangedBut t [.pc] ∧
    (64 ≤ target.toNat → t.CanCycle → ∃ u, step t = .next u ∧ u.fault = .fetchOutOfRange ∧
      u.pc.toNat = target.toNat ∧ t.UnchangedBut u [.fault]))

/-! ### The cycle -/

/-- A step of a Running block whose word at `pc` decodes is the fetch's two writes and then the meaning of the
instruction (R73, R74, R76). -/
def Obligations.StepRunsTheDecodedInstruction : Prop :=
  ∀ (s : State) (i : Instr), s.CanCycle → s.pc.toNat < 64 → decode (s.mem.wordAt s.pc.toNat) = .ok i →
    step s = exec i { s with ir := s.mem.wordAt s.pc.toNat, pc := s.pc + 1 }

/-- R74, R16: below address 64 a fetch writes the word at `pc` to `ir` and increments `pc` modulo 2^16; from 64 on it
raises FETCH_OUT_OF_RANGE and writes neither `ir` nor `pc`. -/
def Obligations.FetchLatchesTheWordOrFaults : Prop :=
  (∀ s : State, s.pc.toNat < 64 →
    (fetch s).ir = s.mem.wordAt s.pc.toNat ∧ (fetch s).pc.toNat = (s.pc.toNat + 1) % 2 ^ 16 ∧
      s.UnchangedBut (fetch s) [.ir, .pc]) ∧
  (∀ s : State, 64 ≤ s.pc.toNat → (fetch s).fault = .fetchOutOfRange ∧ s.UnchangedBut (fetch s) [.fault])

/-- R97: a cycle that fetches a word of opcode 8 to 15 leaves the word in `ir`, its address plus one in `pc`, and
INVALID_OPCODE in `fault`, and writes nothing else. -/
def Obligations.InvalidOpcodeFaultEntry : Prop :=
  ∀ s : State, s.CanCycle → s.pc.toNat < 64 → 8 ≤ (s.mem.wordAt s.pc.toNat).toNat / 4096 →
    ∃ t, step s = .next t ∧ t.fault = .invalidOpcode ∧ t.ir = s.mem.wordAt s.pc.toNat ∧ t.pc = s.pc + 1 ∧
      s.UnchangedBut t [.ir, .pc, .fault]

/-- R98: a cycle at `pc >= 64` raises FETCH_OUT_OF_RANGE and writes nothing else. -/
def Obligations.FetchOutOfRangeFaultEntry : Prop :=
  ∀ s : State, s.CanCycle → 64 ≤ s.pc.toNat →
    ∃ t, step s = .next t ∧ t.fault = .fetchOutOfRange ∧ s.UnchangedBut t [.fault]

/-- R99: a cycle that fetches a LOAD or a STORE whose operand is 64 to 255 leaves the word in `ir`, its address plus one
in `pc`, and DATA_OUT_OF_RANGE in `fault`; no register and no memory word is written. -/
def Obligations.DataOutOfRangeFaultEntry : Prop :=
  ∀ s : State, s.CanCycle → s.pc.toNat < 64 →
    ((s.mem.wordAt s.pc.toNat).toNat / 4096 = 2 ∨ (s.mem.wordAt s.pc.toNat).toNat / 4096 = 3) →
    64 ≤ (s.mem.wordAt s.pc.toNat).toNat % 256 →
    ∃ t, step s = .next t ∧ t.fault = .dataOutOfRange ∧ t.ir = s.mem.wordAt s.pc.toNat ∧ t.pc = s.pc + 1 ∧
      s.UnchangedBut t [.ir, .pc, .fault]

/-- R102: every cycle of a Running block completes, and the fault it raises, if any, is the first that applies of the three
checks in their order. -/
def Obligations.CycleRaisesTheFirstFaultInOrder : Prop :=
  ∀ s : State, s.CanCycle → ∃ t, step s = .next t ∧ t.fault = s.cycleFault

/-- R103: after a fault every element holds what it held after the last write before the check that failed. -/
def Obligations.FaultsArePrecise : Prop :=
  ∀ s t : State, s.CanCycle → step s = .next t →
    (t.fault = .fetchOutOfRange → s.UnchangedBut t [.fault]) ∧
    (t.fault = .invalidOpcode ∨ t.fault = .dataOutOfRange →
      t.ir = s.mem.wordAt s.pc.toNat ∧ t.pc = s.pc + 1 ∧ s.UnchangedBut t [.ir, .pc, .fault])

/-- R104: after a fault the state alone tells the host the cause, the address and the word. -/
def Obligations.HostFindsTheCauseOfAFault : Prop :=
  ∀ s t : State, s.CanCycle → step s = .next t →
    (t.fault = .fetchOutOfRange → t.faultReport = some (.fetchOutOfRange s.pc) ∧ 64 ≤ s.pc.toNat) ∧
    (t.fault = .invalidOpcode → t.faultReport = some (.invalidOpcode (s.mem.wordAt s.pc.toNat) s.pc)) ∧
    (t.fault = .dataOutOfRange → ∃ i a, decode (s.mem.wordAt s.pc.toNat) = .ok i ∧ accessedAddress i = some a ∧
      64 ≤ a ∧ t.faultReport = some (.dataOutOfRange (s.mem.wordAt s.pc.toNat) s.pc (BitVec.ofNat 8 a)))

/-- R77: a cycle that raises no fault writes `ir` and `pc`, then at most the one element its instruction names; `pc` is the
address plus one unless the instruction is a JMP. -/
def Obligations.FaultFreeCycleWritesOneMoreElement : Prop :=
  ∀ s t : State, s.CanCycle → step s = .next t → t.fault = .none →
    ∃ i, decode (s.mem.wordAt s.pc.toNat) = .ok i ∧ t.ir = s.mem.wordAt s.pc.toNat ∧
      s.UnchangedBut t [.ir, .pc, writtenElement i] ∧ (writtenElement i ≠ .pc → t.pc = s.pc + 1)

/-- R78, R81: when the block is Halted or Faulted, CYCLE, FETCH and EXECUTE change nothing. -/
def Obligations.EndedBlockTakesNoStep : Prop :=
  ∀ s : State, s.program ≠ none → s.Ended →
    runCommand .cycle s = .next s ∧ runCommand .fetch s = .next s ∧ runCommand .execute s = .next s

/-- R101: only RESET or LOAD leaves the Faulted state, and the Halted state (R78): no sequence of the other commands changes
anything. -/
def Obligations.EndedStatesAreTerminal : Prop :=
  ∀ (cs : List Command) (s : State), s.program ≠ none → s.Ended →
    (∀ c ∈ cs, c = .cycle ∨ c = .fetch ∨ c = .execute) → runCommands cs s = .next s

/-- R80: a FETCH followed by an EXECUTE has exactly the effect of one CYCLE; between them `ir` holds the new word, `pc` its
address plus one, and nothing else has changed. -/
def Obligations.FetchThenExecuteIsOneCycle : Prop :=
  (∀ s t : State, runCommand .fetch s = .next t → runCommand .execute t = runCommand .cycle s) ∧
  (∀ s : State, s.CanCycle → s.pc.toNat < 64 → ∃ t, runCommand .fetch s = .next t ∧
    t.ir = s.mem.wordAt s.pc.toNat ∧ t.pc = s.pc + 1 ∧ s.UnchangedBut t [.ir, .pc])

/-- R82: each of FETCH and EXECUTE does what its rule says whatever came before it: two FETCH commands in a row skip the
first word, an EXECUTE with no FETCH runs the word in `ir`, and straight after reset an EXECUTE is a HALT. -/
def Obligations.PhasesDoTheirRuleWhateverCameBefore : Prop :=
  (∀ s : State, s.CanCycle → s.pc.toNat + 1 < 64 →
    runCommands [.fetch, .fetch, .execute] s =
      runCommand .execute { s with ir := s.mem.wordAt (s.pc.toNat + 1), pc := s.pc + 2 }) ∧
  (∀ (s : State) (i : Instr), s.CanCycle → decode s.ir = .ok i → runCommand .execute s = exec i s) ∧
  (∀ s t : State, runCommand .reset s = .next t → ∃ u, runCommand .execute t = .next u ∧ u.halted = true ∧
    t.UnchangedBut u [.halted])

/-- A host that keeps its duty on phases gets exactly the effect of a sequence with CYCLE for each pair, which holds no
FETCH and no EXECUTE (R80, R82, R124; that a list may not stop between the two is the model's choice, log 13). -/
def Obligations.ContractSequencesAreCycleSequences : Prop :=
  ∀ cs : List Command, hostKeepsContract cs = true →
    .fetch ∉ pairsAsCycles cs ∧ .execute ∉ pairsAsCycles cs ∧
      ∀ s, runCommands cs s = runCommands (pairsAsCycles cs) s

/-- R21: only the HALT instruction sets the halted flag, and only a reset clears it. -/
def Obligations.OnlyHaltSetsAndOnlyResetClearsHalted : Prop :=
  ∀ (c : Command) (s t : State), runCommand c s = .next t →
    (s.halted = false → t.halted = true → (c = .cycle ∨ c = .execute) ∧ t.ir.toNat / 4096 = 0) ∧
    (s.halted = true → t.halted = false → c = .reset ∨ ∃ image, c = .load image)

/-- R95: a program leaves straight-line order only by JMP: any other cycle that fetches leaves the address plus one in
`pc`. -/
def Obligations.OnlyJmpLeavesStraightLineOrder : Prop :=
  ∀ s t : State, s.CanCycle → s.pc.toNat < 64 → step s = .next t →
    (s.mem.wordAt s.pc.toNat).toNat / 4096 ≠ 6 → t.pc.toNat = s.pc.toNat + 1

/-- R39: memory is written only by STORE and by reset (RESET or an accepted LOAD): any other word that a command changes is
the one addressed by the STORE in `ir`, below 64, and it becomes the STORE's register. -/
def Obligations.OnlyStoreAndResetWriteMemory : Prop :=
  ∀ (c : Command) (s t : State) (a : Nat), runCommand c s = .next t → t.mem.wordAt a ≠ s.mem.wordAt a →
    (c = .reset ∨ ∃ image, c = .load image) ∨
    ((c = .cycle ∨ c = .execute) ∧ t.ir.toNat / 4096 = 3 ∧ a = t.ir.toNat % 256 ∧ a < 64 ∧
      t.mem.wordAt a = s.x (t.ir.toNat / 256 % 4))

/-- A cycle reads memory at the fetch address and, for a LOAD, at its operand, and nowhere else: with any other memory that
agrees there the rest of the next state is the same, and words that agreed before agree after (R31, R83). -/
def Obligations.CycleReadsOnlyItsAddresses : Prop :=
  ∀ (s t : State) (m : Memory), (∀ a, s.cycleReads a → m.wordAt a = s.mem.wordAt a) → step s = .next t →
    ∃ t', step { s with mem := m } = .next t' ∧ t' = { t with mem := t'.mem } ∧
      ∀ a, m.wordAt a = s.mem.wordAt a → t'.mem.wordAt a = t.mem.wordAt a

/-- R43: the word a STORE wrote is what every later fetch from its address latches, the very next cycle's fetch included
(`cs = []`), after any CYCLE, FETCH and EXECUTE commands that do not store to that address again; and a STORE that writes the
address of the instruction now executing does not change that instruction. -/
def Obligations.StoreIsSeenByEveryLaterFetch : Prop :=
  ∀ (s : State) (reg : RegField) (addr8 : OperandField), s.CanCycle → s.pc.toNat < 64 → addr8.toNat < 64 →
    decode (s.mem.wordAt s.pc.toNat) = .ok (.store reg addr8) →
    ∃ t, step s = .next t ∧ t.ir = s.mem.wordAt s.pc.toNat ∧ t.CanCycle ∧
      t.mem.wordAt (dataAddress addr8) = s.x (reg.toNat % 4) ∧
      (∀ v : State, v.mem = t.mem → v.pc.toNat = dataAddress addr8 → (fetch v).ir = s.x (reg.toNat % 4)) ∧
      (∀ cs : List Command, (∀ c ∈ cs, c = .cycle ∨ c = .fetch ∨ c = .execute) →
        t.NeverStoresTo (dataAddress addr8) cs →
        ∃ u, runCommands cs t = .next u ∧ u.mem.wordAt (dataAddress addr8) = s.x (reg.toNat % 4) ∧
          (u.runState = .running → u.pc.toNat = dataAddress addr8 → ∀ c, c = .fetch ∨ c = .cycle →
            ∃ w, runCommand c u = .next w ∧ w.ir = s.x (reg.toNat % 4)))

/-- A JMP to its own address repeats for ever: after any number of cycles the block is Running at the same address with the
same registers and memory (R94, R127). -/
def Obligations.JmpToItselfNeverEnds : Prop :=
  ∀ (s : State) (reg : RegField) (target : OperandField), s.CanCycle → s.pc.toNat < 64 →
    decode (s.mem.wordAt s.pc.toNat) = .ok (.jmp reg target) → target.toNat = s.pc.toNat →
    ∀ k, ∃ t, runCommands (List.replicate k .cycle) s = .next t ∧ t.CanCycle ∧ s.UnchangedBut t [.ir]

/-- A run has at most one result, whatever number of cycles is issued after its end (R78, R126). -/
def Obligations.RunHasOneResult : Prop :=
  ∀ (s t u : State) (j k : Nat), s.HaltsAfter j t → s.HaltsAfter k u → t = u

/-! ### Legal states -/

/-- The reset state is legal (R18, R24, R27, R30, R115). -/
def Obligations.ResetStateIsLegal : Prop :=
  State.reset.Legal

/-- Every step keeps legality: memory stays canonical, `pc` stays in 0 to 255, Halted and Faulted exclude each other, the
recorded program fits (R18, R24, R34; that memory is a canonical list is the model's choice, log 4). -/
def Obligations.EveryStepKeepsLegality : Prop :=
  ∀ s t : State, s.Legal → step s = .next t → t.Legal

/-- Every command of the host keeps legality, the phases driven alone among them (R18, R24, R28, R115). -/
def Obligations.EveryCommandKeepsLegality : Prop :=
  ∀ (c : Command) (s t : State), s.Legal → runCommand c s = .next t → t.Legal

/-- Canonical memories that read the same at the 64 addresses are equal data (the model's form of memory, log 4; R30). -/
def Obligations.CanonicalMemoriesWithEqualWordsAreEqual : Prop :=
  ∀ m m' : Memory, m.wf → m'.wf → (∀ a < 64, m.wordAt a = m'.wordAt a) → m = m'

/-! ### Load and reset -/

/-- R118, R27: RESET gives every element its reset value from the recorded program, whatever the state was; R119: the block
is then Running at address 0. -/
def Obligations.ResetBuildsTheInitialState : Prop :=
  ∀ (s : State) (p : Program), s.program = some p → p.length ≤ 64 →
    ∃ t, runCommand .reset s = .next t ∧ (∀ n < 4, t.x n = 0) ∧ t.pc = 0 ∧ t.ir = 0 ∧ t.halted = false ∧
      t.fault = .none ∧ (∀ (a : Nat) (h : a < p.length), t.mem.wordAt a = p[a]) ∧
      (∀ a, p.length ≤ a → t.mem.wordAt a = 0) ∧ t.program = some p ∧ t.CanCycle

/-- R115, R116: an image of an even number of bytes and at most 64 words, 0 words among them, is accepted: its big-endian
words are recorded as the program, and the block is reset from them, whatever the state was; an image of an odd number of
bytes or of more than 64 words is refused and nothing changes (R114, R117). -/
def Obligations.LoadAcceptsOrRefusesTheImage : Prop :=
  (∀ image : List Byte, image.length % 2 = 0 → image.length ≤ 128 →
    ∃ p : Program, p.length = image.length / 2 ∧
      (∀ i < p.length, (p.getD i 0).toNat = 2 ^ 8 * (image.getD (2 * i) 0).toNat + (image.getD (2 * i + 1) 0).toNat) ∧
      ∀ s, ∃ t, runCommand (.load image) s = .next t ∧ t.program = some p ∧ runCommand .reset t = .next t ∧
        ∀ a, t.mem.wordAt a = p.getD a 0) ∧
  (∀ image : List Byte, image.length % 2 = 1 ∨ 128 < image.length →
    (∃ r, checkImage image = .error r) ∧ ∀ s, runCommand (.load image) s = .next s)

/-- Before the first accepted load only LOAD has a step (R117; that the others answer a fault is the model's rendering,
log 1). -/
def Obligations.OnlyLoadHasAStepBeforeTheFirstLoad : Prop :=
  ∀ (s : State) (c : Command), s.program = none → (∀ image, c ≠ .load image) → runCommand c s = .fault .noProgram

/-- A word placed by `withFetchWord` is what the next step fetches and runs, from every state; and where the state can
cycle already only that memory word changes (the model's own tool, log 12). -/
def Obligations.PlacedWordRunsNext : Prop :=
  ∀ (s : State) (w : Nat) (i : Instr), decode (BitVec.ofNat 16 w) = .ok i →
    (∃ u : State, step (s.withFetchWord 16 w) = exec i u ∧ u.ir = BitVec.ofNat 16 w ∧
      u.pc = (s.withFetchWord 16 w).pc + 1 ∧ (s.withFetchWord 16 w).UnchangedBut u [.ir, .pc]) ∧
    (s.CanCycle → s.pc.toNat < 64 → s.UnchangedBut (s.withFetchWord 16 w) [.word s.pc.toNat])

/-! ### The assembly language -/

/-- R62: each mnemonic with its arguments is one line that assembles to the word of its row, and no other token is a
mnemonic. -/
def Obligations.MnemonicLinesAssembleToTheirWords : Prop :=
  LineGivesWord ['H', 'A', 'L', 'T'] 0 0 0 ∧
  (∀ d < 4, ∀ n < 256,
    LineGivesWord (['L', 'V', 'A', 'L', ' '] ++ registerText d ++ [',', ' '] ++ Nat.toDigits 10 n) 1 d n) ∧
  (∀ d < 4, ∀ a < 64,
    LineGivesWord (['L', 'O', 'A', 'D', ' '] ++ registerText d ++ [',', ' '] ++ Nat.toDigits 10 a) 2 d a) ∧
  (∀ s < 4, ∀ a < 64,
    LineGivesWord (['S', 'T', 'O', 'R', 'E', ' '] ++ registerText s ++ [',', ' '] ++ Nat.toDigits 10 a) 3 s a) ∧
  (∀ d < 4, ∀ s < 4, LineGivesWord (['A', 'D', 'D', ' '] ++ registerText d ++ [',', ' '] ++ registerText s) 4 d s) ∧
  (∀ d < 4, ∀ s < 4, LineGivesWord (['S', 'U', 'B', ' '] ++ registerText d ++ [',', ' '] ++ registerText s) 5 d s) ∧
  (∀ a < 64, LineGivesWord (['J', 'M', 'P', ' '] ++ Nat.toDigits 10 a) 6 0 a) ∧
  (∀ d < 4, ∀ s < 4, LineGivesWord (['M', 'O', 'V', ' '] ++ registerText d ++ [',', ' '] ++ registerText s) 7 d s) ∧
  (∀ token, mnemonicOf token ≠ none → token ∈ [['H', 'A', 'L', 'T'], ['L', 'V', 'A', 'L'], ['L', 'O', 'A', 'D'],
    ['S', 'T', 'O', 'R', 'E'], ['A', 'D', 'D'], ['S', 'U', 'B'], ['J', 'M', 'P'], ['M', 'O', 'V']])

/-- R63: a register argument is exactly one of the four tokens, mapped to the indices 0 to 3; any other token is an error
naming the token. -/
def Obligations.RegisterTokensAreExactlyFour : Prop :=
  ∀ token : List Char, (∀ n < 4, token = registerText n → registerIndex token = .ok n) ∧
    ((∀ n < 4, token ≠ registerText n) → registerIndex token = .error (.badRegister token))

/-- A numeric argument is one or more decimal digits (R61) of value 0 to 255 (R64), and an address argument must also be
below 64 (R65); any other token is an error. That digits with leading zeros are such a number is the model's choice
(DEDUCED, log 10). -/
def Obligations.NumbersAreDecimalAndBounded : Prop :=
  ∀ token : List Char,
    let value := token.foldl (fun n c => 10 * n + (c.toNat - 48)) 0
    let decimal := token ≠ [] ∧ ∀ c ∈ token, 48 ≤ c.toNat ∧ c.toNat ≤ 57
    (decimal → value ≤ 255 → numberArgument token = .ok value) ∧
    (¬ decimal ∨ 255 < value → numberArgument token = .error (.badNumber token)) ∧
    (decimal → value < 64 → addressArgument token = .ok value) ∧
    (¬ decimal ∨ 64 ≤ value → ∃ r, addressArgument token = .error r)

/-- R61: whitespace at the start and the end of an instruction line, after the mnemonic, around an argument and around the
comma is ignored: a line of any of the eight mnemonics with 0, 1 or 2 arguments, good ones or bad, has the outcome of the line
with one space after the mnemonic and after the comma and no other whitespace. -/
def Obligations.BlanksAroundArgumentsAreIgnored : Prop :=
  ∀ (m b1 b2 b3 b4 b5 a b : List Char) (w : Char), mnemonicOf m ≠ none → w = ' ' ∨ w = '\t' →
    Blank b1 → Blank b2 → Blank b3 → Blank b4 → Blank b5 → ArgumentToken a → ArgumentToken b →
    assembleLine (b1 ++ m ++ b5) = assembleLine m ∧
    assembleLine (b1 ++ m ++ w :: b2 ++ a ++ b5) = assembleLine (m ++ ' ' :: a) ∧
    assembleLine (b1 ++ m ++ w :: b2 ++ a ++ b3 ++ ',' :: b4 ++ b ++ b5) = assembleLine (m ++ ' ' :: a ++ [',', ' '] ++ b)

/-- Every instruction the assembler writes is in canonical form, and a LOAD, a STORE or a JMP in it has an address below 64
(R52, R55, R65). -/
def Obligations.AssembledInstructionsAreCanonicalAndInRange : Prop :=
  ∀ (source : List Char) (is : List Instr), assembleInstrs source = .ok is →
    ∀ i ∈ is, WellFormed i = true ∧ (∀ a, accessedAddress i = some a → a < 64) ∧
      (∀ reg target, i = .jmp reg target → target.toNat < 64)

/-- The image of a source has two bytes for each instruction line; when the words fit the memory the load accepts it and
the block is reset from the instructions' words, and when they do not the load refuses it (R66, R70, R115, R116). -/
def Obligations.AssembledImageLoadsBack : Prop :=
  ∀ (source : List Char) (is : List Instr), assembleInstrs source = .ok is →
    ∃ image, assemble source = .ok image ∧ image.length = 2 * is.length ∧
      (is.length ≤ 64 → ∀ s, runCommand (.load image) s = .next (State.resetFrom (is.map encode))) ∧
      (64 < is.length → ∀ s, runCommand (.load image) s = .next s)

/-- The first line with a fatal error fails the whole run, is the line reported, and no output is produced, not even the
words of earlier lines (R67; which of several errors in one line is named is the model's choice, log 9). -/
def Obligations.FirstBadLineFailsTheRun : Prop :=
  ∀ (source : List Char) (before after : List (List Char)) (bad : List Char) (r : AsmReason),
    sourceLines source = before ++ bad :: after → (∀ line ∈ before, ∃ o, assembleLine line = .ok o) →
    assembleLine bad = .error r → assemble source = .error { line := before.length + 1, reason := r }

/-- R69: the word a line produces depends on that line alone: a source made of two sources assembles to the instructions of
the first and then those of the second. -/
def Obligations.SourcesAssembleIndependently : Prop :=
  ∀ (a b : List Char) (is js : List Instr), assembleInstrs a = .ok is → assembleInstrs b = .ok js →
    assembleInstrs (a ++ '\n' :: b) = .ok (is ++ js)

/-- R72: a source of only blank and comment lines assembles to the empty image, which the load accepts; the block then
starts on a memory of zeros and halts at its first cycle. -/
def Obligations.SourceWithoutInstructionsHaltsAtOnce : Prop :=
  ∀ source : List Char,
    (∀ line ∈ sourceLines source, (∃ cs, line = ';' :: cs) ∨ ∀ c ∈ line, c = ' ' ∨ c = '\t') →
    assemble source = .ok [] ∧
      ∀ s, ∃ t u, runCommand (.load []) s = .next t ∧ (∀ a, t.mem.wordAt a = 0) ∧ step t = .next u ∧
        u.runState = .halted

end
end

