-- ==== Sys2Proof/Laws/Assembler.lean ====
section
/-! SUPPORT. What the assembler's text functions do with whitespace and separators (R61). -/

namespace Sys2Proof.Machine

/-- Whitespace at the start of a text is dropped. -/
theorem skipBlanks_append {blanks text : List Char} (h : ∀ c ∈ blanks, isBlankChar c = true) :
    skipBlanks (blanks ++ text) = skipBlanks text := by
  induction blanks with
  | nil => rfl
  | cons c blanks ih =>
    rw [List.cons_append, skipBlanks, if_pos (h c List.mem_cons_self)]
    exact ih fun d hd => h d (List.mem_cons_of_mem _ hd)

/-- A text of whitespace alone leaves nothing. -/
theorem skipBlanks_of_all_blank {text : List Char} (h : ∀ c ∈ text, isBlankChar c = true) : skipBlanks text = [] := by
  simpa [skipBlanks] using skipBlanks_append (text := []) h

/-- A text that starts with no whitespace is left as it is. -/
theorem skipBlanks_of_head {text : List Char} (h : ∀ c, text.head? = some c → isBlankChar c = false) :
    skipBlanks text = text := by
  cases text with
  | nil => rfl
  | cons c text => simp [skipBlanks, h c rfl]

/-- Trimming finds a text again that has whitespace at neither end, whatever whitespace stands around it. -/
theorem trimBlanks_around {before text after : List Char} (hb : ∀ c ∈ before, isBlankChar c = true)
    (ha : ∀ c ∈ after, isBlankChar c = true) (hhead : ∀ c, text.head? = some c → isBlankChar c = false)
    (hlast : ∀ c, text.getLast? = some c → isBlankChar c = false) (hne : text ≠ []) :
    trimBlanks (before ++ text ++ after) = text := by
  have hstart : ∀ c, (text ++ after).head? = some c → isBlankChar c = false := by
    cases text with
    | nil => exact absurd rfl hne
    | cons d ds => exact hhead
  rw [trimBlanks, List.append_assoc, skipBlanks_append hb, skipBlanks_of_head hstart, List.reverse_append,
    skipBlanks_append (by simpa using ha), skipBlanks_of_head, List.reverse_reverse]
  intro c hc
  exact hlast c (by simpa [List.head?_reverse] using hc)

theorem splitAtChar_ne_nil (sep : Char) (text : List Char) : splitAtChar sep text ≠ [] := by
  cases text with
  | nil => simp [splitAtChar]
  | cons c text =>
    simp only [splitAtChar]
    split
    · simp
    · split <;> simp

/-- A separator parts the pieces before it from the pieces after it. -/
theorem splitAtChar_append (sep : Char) (a b : List Char) :
    splitAtChar sep (a ++ sep :: b) = splitAtChar sep a ++ splitAtChar sep b := by
  induction a with
  | nil => simp [splitAtChar]
  | cons c cs ih =>
    simp only [List.cons_append, splitAtChar]
    split
    · rw [ih]; simp
    · rw [ih]
      cases h : splitAtChar sep cs with
      | nil => exact absurd h (splitAtChar_ne_nil sep cs)
      | cons p ps => simp

/-- A text without the separator is one piece. -/
theorem splitAtChar_of_not_mem {sep : Char} {text : List Char} (h : sep ∉ text) : splitAtChar sep text = [text] := by
  induction text with
  | nil => rfl
  | cons c text ih =>
    simp only [splitAtChar]
    rw [if_neg (by rintro rfl; simp at h), ih (by simp_all)]

/-- A token without whitespace is cut off whole before the text that starts with whitespace. -/
theorem cutAtBlank_append {token rest : List Char} (ht : ∀ c ∈ token, isBlankChar c = false)
    (hr : ∀ c, rest.head? = some c → isBlankChar c = true) : cutAtBlank (token ++ rest) = (token, rest) := by
  induction token with
  | nil =>
    cases rest with
    | nil => rfl
    | cons c rest => simp [cutAtBlank, hr c rfl]
  | cons c token ih =>
    simp [cutAtBlank, ht c List.mem_cons_self, ih fun d hd => ht d (List.mem_cons_of_mem _ hd)]

end Sys2Proof.Machine
end

