-- ==== Sys2Proof/Laws/Decode.lean ====
section
/-! SUPPORT. The fields of a word as numbers, and the opcode lookup. -/

namespace Sys2Proof

theorem decodeFields_opcode_toNat (w : Word) : (decodeFields w).opcode.toNat = w.toNat / 4096 := by
  have := w.isLt
  simp only [decodeFields, BitVec.extractLsb'_toNat, Nat.shiftRight_eq_div_pow]; omega

theorem decodeFields_reg_toNat (w : Word) : (decodeFields w).reg.toNat = w.toNat / 256 % 16 := by
  simp only [decodeFields, BitVec.extractLsb'_toNat, Nat.shiftRight_eq_div_pow]

theorem decodeFields_operand_toNat (w : Word) : (decodeFields w).operand.toNat = w.toNat % 256 := by
  simp [decodeFields, BitVec.extractLsb'_toNat]

/-- The word of three fields as a number (R48). -/
theorem encodeFields_toNat (f : Fields) :
    (encodeFields f).toNat = f.opcode.toNat * 4096 + f.reg.toNat * 256 + f.operand.toNat := by
  have ho := f.opcode.isLt
  have hr := f.reg.isLt
  have hp := f.operand.isLt
  have hmask : f.reg.toNat &&& 15 = f.reg.toNat := by
    rw [show 15 = 2 ^ 4 - 1 from rfl, Nat.and_two_pow_sub_one_eq_mod]; omega
  have hmask' : f.operand.toNat &&& 255 = f.operand.toNat := by
    rw [show 255 = 2 ^ 8 - 1 from rfl, Nat.and_two_pow_sub_one_eq_mod]; omega
  have h1 : f.opcode.toNat <<< 12 = (f.opcode.toNat <<< 4) <<< 8 := by rw [← Nat.shiftLeft_add]
  simp only [encodeFields, BitVec.toNat_or, BitVec.toNat_and, BitVec.toNat_shiftLeft, BitVec.toNat_setWidth,
    BitVec.ofNat_eq_ofNat, BitVec.toNat_ofNat]
  rw [Nat.mod_eq_of_lt (show f.opcode.toNat < 2 ^ 16 by omega), Nat.mod_eq_of_lt (show f.reg.toNat < 2 ^ 16 by omega),
    Nat.mod_eq_of_lt (show f.operand.toNat < 2 ^ 16 by omega)]
  rw [show 15 % 2 ^ 16 = 15 from rfl, show 255 % 2 ^ 16 = 255 from rfl, hmask, hmask', Nat.mod_eq_of_lt, Nat.mod_eq_of_lt,
    h1, ← Nat.shiftLeft_or_distrib, ← Nat.shiftLeft_add_eq_or_of_lt (by omega), ← Nat.shiftLeft_add_eq_or_of_lt (by omega)]
  · simp only [Nat.shiftLeft_eq]; omega
  · simp only [Nat.shiftLeft_eq]; omega
  · simp only [Nat.shiftLeft_eq]; omega

/-- A word is the word of its own fields. -/
theorem encodeFields_decodeFields (w : Word) : encodeFields (decodeFields w) = w := by
  apply BitVec.eq_of_toNat_eq
  rw [encodeFields_toNat, decodeFields_opcode_toNat, decodeFields_reg_toNat, decodeFields_operand_toNat]; omega

/-- The lookup finds an operation exactly at its code (R53). -/
theorem opcodeFromCode_eq_some (c : BitVec 4) (op : Opcode) : opcodeFromCode c = some op ↔ c = codeOf op := by
  revert c; cases op <;> decide

/-- The lookup finds nothing exactly at the codes 8 to 15 (R53, R54). -/
theorem opcodeFromCode_eq_none (c : BitVec 4) : opcodeFromCode c = none ↔ 8 ≤ c.toNat := by
  revert c; decide

/-- The decoder refuses exactly the words whose opcode field is 8 to 15, by that field (R54). -/
theorem decode_eq_error (w : Word) (r : DecodeRefusal) :
    decode w = .error r ↔ 8 ≤ w.toNat / 4096 ∧ r = .invalidOpcode (decodeFields w).opcode := by
  rw [← decodeFields_opcode_toNat, ← opcodeFromCode_eq_none]
  unfold decode
  cases h : opcodeFromCode (decodeFields w).opcode <;> simp [eq_comm]

/-- The decoder answers the instruction its three fields name (R52, R71). -/
theorem decode_eq_ok (w : Word) (i : Instr) :
    decode w = .ok i ↔ (decodeFields w).opcode = codeOf (opcodeOf i) ∧ (decodeFields w).reg = regFieldOf i ∧
      (decodeFields w).operand = operandFieldOf i := by
  unfold decode
  split
  · rename_i op h
    rw [opcodeFromCode_eq_some] at h
    rw [h]
    cases op <;> cases i <;> simp [instrOf, opcodeOf, regFieldOf, operandFieldOf, codeOf]
  · rename_i h
    rw [opcodeFromCode_eq_none] at h
    simp only [reduceCtorEq, false_iff, not_and]
    intro hc
    rw [hc] at h
    cases i <;> simp [opcodeOf, codeOf] at h

end Sys2Proof
end

