-- ==== Sys2Proof/Laws/Memory.lean ====
section
/-! SUPPORT. The memory operations: what a read gives after a write, and that every operation keeps the canonical form. -/

namespace Sys2Proof.Machine

@[simp] theorem Memory.wordAt_nil (a : Nat) : Memory.wordAt [] a = 0 := rfl

theorem Memory.wordAt_cons (c : Cell) (m : Memory) (a : Nat) :
    Memory.wordAt (c :: m) a = if c.1 = a then c.2 else Memory.wordAt m a := rfl

theorem Memory.wordAt_without (m : Memory) (a b : Nat) :
    (m.without a).wordAt b = if b = a then 0 else m.wordAt b := by
  induction m with
  | nil => simp [Memory.without]
  | cons c m ih =>
    simp only [Memory.without, Memory.wordAt_cons]
    split
    · rw [ih]; grind
    · rw [Memory.wordAt_cons, ih]; grind

theorem Memory.mem_without {m : Memory} {a : Nat} {c : Cell} (h : c ∈ m.without a) : c ∈ m ∧ c.1 ≠ a := by
  induction m with
  | nil => simp [Memory.without] at h
  | cons d m ih =>
    simp only [Memory.without] at h
    split at h
    · exact ⟨List.mem_cons_of_mem _ (ih h).1, (ih h).2⟩
    · rcases List.mem_cons.mp h with rfl | h
      · exact ⟨List.mem_cons_self, ‹_›⟩
      · exact ⟨List.mem_cons_of_mem _ (ih h).1, (ih h).2⟩

theorem Memory.mem_insertCell {m : Memory} {a : Nat} {v : Word} {c : Cell} (h : c ∈ m.insertCell a v) :
    c = (a, v) ∨ c ∈ m := by
  induction m with
  | nil => simpa [Memory.insertCell] using h
  | cons d m ih =>
    simp only [Memory.insertCell] at h
    split at h
    · simpa using h
    · rcases List.mem_cons.mp h with rfl | h
      · simp
      · rcases ih h with h | h <;> simp [h]

theorem Memory.wordAt_insertCell (m : Memory) (a b : Nat) (v : Word) (h : ∀ c ∈ m, c.1 ≠ a) :
    (m.insertCell a v).wordAt b = if b = a then v else m.wordAt b := by
  induction m with
  | nil => simp [Memory.insertCell, Memory.wordAt_cons, eq_comm]
  | cons d m ih =>
    have hd : d.1 ≠ a := h d List.mem_cons_self
    have ih' := ih fun c hc => h c (List.mem_cons_of_mem _ hc)
    simp only [Memory.insertCell]
    split
    · simp only [Memory.wordAt_cons, eq_comm]
    · rw [Memory.wordAt_cons, Memory.wordAt_cons, ih']; grind

/-- A read after a write: the value written, at the address written, and the old word at every other address. -/
@[simp] theorem Memory.wordAt_setWord (m : Memory) (a b : Nat) (v : Word) :
    (m.setWord a v).wordAt b = if b = a then v else m.wordAt b := by
  unfold Memory.setWord
  split
  · subst_vars; exact Memory.wordAt_without m a b
  · rw [Memory.wordAt_insertCell _ _ _ _ fun c hc => (Memory.mem_without hc).2, Memory.wordAt_without]
    split <;> rfl

theorem Memory.pairwise_without {m : Memory} (a : Nat) (h : m.Pairwise (fun c d => c.1 < d.1)) :
    (m.without a).Pairwise (fun c d => c.1 < d.1) := by
  induction m with
  | nil => simp [Memory.without]
  | cons c m ih =>
    rw [List.pairwise_cons] at h
    simp only [Memory.without]
    split
    · exact ih h.2
    · exact List.pairwise_cons.mpr ⟨fun d hd => h.1 d (Memory.mem_without hd).1, ih h.2⟩

theorem Memory.pairwise_insertCell {m : Memory} (a : Nat) (v : Word) (h : m.Pairwise (fun c d => c.1 < d.1))
    (hne : ∀ c ∈ m, c.1 ≠ a) : (m.insertCell a v).Pairwise (fun c d => c.1 < d.1) := by
  induction m with
  | nil => simp [Memory.insertCell]
  | cons c m ih =>
    have hc := List.pairwise_cons.mp h
    simp only [Memory.insertCell]
    split
    · refine List.pairwise_cons.mpr ⟨fun d hd => ?_, h⟩
      rcases List.mem_cons.mp hd with rfl | hd
      · assumption
      · exact Nat.lt_trans ‹_› (hc.1 d hd)
    · refine List.pairwise_cons.mpr ⟨fun d hd => ?_, ih hc.2 fun d hd => hne d (List.mem_cons_of_mem _ hd)⟩
      have := hne c List.mem_cons_self
      rcases Memory.mem_insertCell hd with rfl | hd
      · show c.1 < a; omega
      · exact hc.1 d hd

/-- A write below address 64 keeps the canonical form. -/
theorem Memory.wf_setWord {m : Memory} (h : m.wf) {a : Nat} (ha : a < Config.memWords) (v : Word) :
    (m.setWord a v).wf := by
  unfold Memory.setWord
  split
  · exact ⟨Memory.pairwise_without a h.1, fun c hc => h.2 c (Memory.mem_without hc).1⟩
  · refine ⟨Memory.pairwise_insertCell a v (Memory.pairwise_without a h.1) fun c hc => (Memory.mem_without hc).2,
      fun c hc => ?_⟩
    rcases Memory.mem_insertCell hc with rfl | hc
    · exact ⟨ha, ‹_›⟩
    · exact h.2 c (Memory.mem_without hc).1

/-- The memory of words from address `a` on: word `b - a` at `b`, and 0 elsewhere. -/
theorem Memory.wordAt_ofWordsFrom (ws : List Word) (a b : Nat) :
    (Memory.ofWordsFrom a ws).wordAt b = if a ≤ b then ws.getD (b - a) 0 else 0 := by
  induction ws generalizing a with
  | nil => simp [Memory.ofWordsFrom]
  | cons w ws ih =>
    have key : a ≤ b → a ≠ b → (w :: ws).getD (b - a) 0 = ws.getD (b - (a + 1)) 0 := by
      intro h1 h2
      obtain ⟨k, hk⟩ : ∃ k, b - a = k + 1 := ⟨b - a - 1, by omega⟩
      rw [hk, show b - (a + 1) = k by omega]; rfl
    simp only [Memory.ofWordsFrom]
    by_cases hab : a = b
    · subst hab
      split
      · rw [ih]; simp_all
      · simp [Memory.wordAt_cons]
    · split
      · rw [ih]; grind
      · rw [Memory.wordAt_cons, ih]; grind

theorem Memory.mem_ofWordsFrom {ws : List Word} {a : Nat} {c : Cell} (h : c ∈ Memory.ofWordsFrom a ws) :
    a ≤ c.1 ∧ c.1 < a + ws.length ∧ c.2 ≠ 0 := by
  induction ws generalizing a with
  | nil => simp [Memory.ofWordsFrom] at h
  | cons w ws ih =>
    simp only [Memory.ofWordsFrom] at h
    simp only [List.length_cons]
    split at h
    · have := ih h; exact ⟨by omega, by omega, this.2.2⟩
    · rcases List.mem_cons.mp h with rfl | h
      · exact ⟨Nat.le_refl _, by show a < _; omega, ‹_›⟩
      · have := ih h; exact ⟨by omega, by omega, this.2.2⟩

/-- The memory a reset builds from a program of at most 64 words is canonical. -/
theorem Memory.wf_ofWordsFrom {ws : List Word} {a : Nat} (h : a + ws.length ≤ Config.memWords) :
    (Memory.ofWordsFrom a ws).wf := by
  refine ⟨?_, fun c hc => ⟨by have := Memory.mem_ofWordsFrom hc; omega, (Memory.mem_ofWordsFrom hc).2.2⟩⟩
  clear h
  induction ws generalizing a with
  | nil => simp [Memory.ofWordsFrom]
  | cons w ws ih =>
    simp only [Memory.ofWordsFrom]
    split
    · exact ih
    · refine List.pairwise_cons.mpr ⟨fun d hd => ?_, ih⟩
      have := (Memory.mem_ofWordsFrom hd).1
      show a < d.1; omega

theorem Memory.wf_nil : Memory.wf [] := by simp [Memory.wf]

/-- `MemRead` answers the word below address 64 and OUT_OF_RANGE from 64 on (R32). -/
theorem memRead_eq_some {m : Memory} {a : Nat} (h : a < 64) : memRead m a = some (m.wordAt a) := if_pos h

theorem memRead_eq_none {m : Memory} {a : Nat} (h : 64 ≤ a) : memRead m a = none := if_neg (Nat.not_lt.mpr h)

/-- `MemWrite` answers the written memory below address 64 and OUT_OF_RANGE from 64 on (R33). -/
theorem memWrite_eq_some {m : Memory} {a : Nat} {v : Word} (h : a < 64) : memWrite m a v = some (m.setWord a v) :=
  if_pos h

theorem memWrite_eq_none {m : Memory} {a : Nat} {v : Word} (h : 64 ≤ a) : memWrite m a v = none :=
  if_neg (Nat.not_lt.mpr h)

end Sys2Proof.Machine
end

