-- ==== Sys2Proof/Laws/State.lean ====
section
/-! SUPPORT. One lemma per field per update of the state, so that no proof unfolds a record update. -/

namespace Sys2Proof.Machine

/-! ### `State.writeReg` -/

@[simp] theorem State.writeReg_regs (s : State) (r : Reg) (v : Word) : (s.writeReg r v).regs = s.regs.write r v := rfl
@[simp] theorem State.writeReg_pc (s : State) (r : Reg) (v : Word) : (s.writeReg r v).pc = s.pc := rfl
@[simp] theorem State.writeReg_ir (s : State) (r : Reg) (v : Word) : (s.writeReg r v).ir = s.ir := rfl
@[simp] theorem State.writeReg_mem (s : State) (r : Reg) (v : Word) : (s.writeReg r v).mem = s.mem := rfl
@[simp] theorem State.writeReg_halted (s : State) (r : Reg) (v : Word) : (s.writeReg r v).halted = s.halted := rfl
@[simp] theorem State.writeReg_fault (s : State) (r : Reg) (v : Word) : (s.writeReg r v).fault = s.fault := rfl
@[simp] theorem State.writeReg_program (s : State) (r : Reg) (v : Word) : (s.writeReg r v).program = s.program := rfl

/-! ### `State.setPc` -/

@[simp] theorem State.setPc_regs (s : State) (v : Word) : (s.setPc v).regs = s.regs := rfl
@[simp] theorem State.setPc_pc (s : State) (v : Word) : (s.setPc v).pc = v := rfl
@[simp] theorem State.setPc_ir (s : State) (v : Word) : (s.setPc v).ir = s.ir := rfl
@[simp] theorem State.setPc_mem (s : State) (v : Word) : (s.setPc v).mem = s.mem := rfl
@[simp] theorem State.setPc_halted (s : State) (v : Word) : (s.setPc v).halted = s.halted := rfl
@[simp] theorem State.setPc_fault (s : State) (v : Word) : (s.setPc v).fault = s.fault := rfl
@[simp] theorem State.setPc_program (s : State) (v : Word) : (s.setPc v).program = s.program := rfl

/-! ### `State.latch` -/

@[simp] theorem State.latch_regs (s : State) (w : Word) : (s.latch w).regs = s.regs := rfl
@[simp] theorem State.latch_pc (s : State) (w : Word) : (s.latch w).pc = s.pc + 1 := rfl
@[simp] theorem State.latch_ir (s : State) (w : Word) : (s.latch w).ir = w := rfl
@[simp] theorem State.latch_mem (s : State) (w : Word) : (s.latch w).mem = s.mem := rfl
@[simp] theorem State.latch_halted (s : State) (w : Word) : (s.latch w).halted = s.halted := rfl
@[simp] theorem State.latch_fault (s : State) (w : Word) : (s.latch w).fault = s.fault := rfl
@[simp] theorem State.latch_program (s : State) (w : Word) : (s.latch w).program = s.program := rfl

/-! ### `State.setMem` -/

@[simp] theorem State.setMem_regs (s : State) (m : Memory) : (s.setMem m).regs = s.regs := rfl
@[simp] theorem State.setMem_pc (s : State) (m : Memory) : (s.setMem m).pc = s.pc := rfl
@[simp] theorem State.setMem_ir (s : State) (m : Memory) : (s.setMem m).ir = s.ir := rfl
@[simp] theorem State.setMem_mem (s : State) (m : Memory) : (s.setMem m).mem = m := rfl
@[simp] theorem State.setMem_halted (s : State) (m : Memory) : (s.setMem m).halted = s.halted := rfl
@[simp] theorem State.setMem_fault (s : State) (m : Memory) : (s.setMem m).fault = s.fault := rfl
@[simp] theorem State.setMem_program (s : State) (m : Memory) : (s.setMem m).program = s.program := rfl

/-! ### `State.raise` -/

@[simp] theorem State.raise_regs (s : State) (c : FaultStatus) : (s.raise c).regs = s.regs := rfl
@[simp] theorem State.raise_pc (s : State) (c : FaultStatus) : (s.raise c).pc = s.pc := rfl
@[simp] theorem State.raise_ir (s : State) (c : FaultStatus) : (s.raise c).ir = s.ir := rfl
@[simp] theorem State.raise_mem (s : State) (c : FaultStatus) : (s.raise c).mem = s.mem := rfl
@[simp] theorem State.raise_halted (s : State) (c : FaultStatus) : (s.raise c).halted = s.halted := rfl
@[simp] theorem State.raise_fault (s : State) (c : FaultStatus) : (s.raise c).fault = c := rfl
@[simp] theorem State.raise_program (s : State) (c : FaultStatus) : (s.raise c).program = s.program := rfl

/-! ### `State.setHalted` -/

@[simp] theorem State.setHalted_regs (s : State) : s.setHalted.regs = s.regs := rfl
@[simp] theorem State.setHalted_pc (s : State) : s.setHalted.pc = s.pc := rfl
@[simp] theorem State.setHalted_ir (s : State) : s.setHalted.ir = s.ir := rfl
@[simp] theorem State.setHalted_mem (s : State) : s.setHalted.mem = s.mem := rfl
@[simp] theorem State.setHalted_halted (s : State) : s.setHalted.halted = true := rfl
@[simp] theorem State.setHalted_fault (s : State) : s.setHalted.fault = s.fault := rfl
@[simp] theorem State.setHalted_program (s : State) : s.setHalted.program = s.program := rfl

/-! ### `State.resetFrom` -/

@[simp] theorem State.resetFrom_regs (p : Program) :
    (State.resetFrom p).regs = { r0 := 0, r1 := 0, r2 := 0, r3 := 0 } := rfl
@[simp] theorem State.resetFrom_pc (p : Program) : (State.resetFrom p).pc = 0 := rfl
@[simp] theorem State.resetFrom_ir (p : Program) : (State.resetFrom p).ir = 0 := rfl
@[simp] theorem State.resetFrom_mem (p : Program) : (State.resetFrom p).mem = Memory.ofWordsFrom 0 p := rfl
@[simp] theorem State.resetFrom_halted (p : Program) : (State.resetFrom p).halted = false := rfl
@[simp] theorem State.resetFrom_fault (p : Program) : (State.resetFrom p).fault = .none := rfl
@[simp] theorem State.resetFrom_program (p : Program) : (State.resetFrom p).program = some p := rfl

/-- `State.reset` is the reset from the program of 0 words. -/
theorem State.reset_eq_resetFrom : State.reset = State.resetFrom [] := rfl

/-! ### The run state -/

/-- A block is Running exactly when it is neither halted nor faulted. -/
theorem State.runState_running_iff (s : State) : s.runState = .running ↔ s.halted = false ∧ s.fault = .none := by
  unfold State.runState
  split
  · simp_all
  · split <;> simp_all

/-- The run state reads nothing but `halted` and `fault`. -/
theorem State.runState_congr {s t : State} (hh : t.halted = s.halted) (hf : t.fault = s.fault) :
    t.runState = s.runState := by
  simp [State.runState, hh, hf]

end Sys2Proof.Machine
end

