-- ==== Sys2Proof/Laws/Registers.lean ====
section
/-! SUPPORT. The register file, register selection and operand forms, once each. -/

namespace Sys2Proof.Machine

/-- The index of a register (R63). -/
def regIndex : Reg → Nat
  | .R0 => 0
  | .R1 => 1
  | .R2 => 2
  | .R3 => 3

/-- A read after a write: the value written, at the register written, and the old value elsewhere. -/
@[simp] theorem RegFile.read_write (x : RegFile) (r q : Reg) (v : Word) :
    (x.write r v).read q = if q = r then v else x.read q := by
  cases r <;> cases q <;> rfl

/-- A register read is the read of its index. -/
theorem State.readReg_eq_x (s : State) (r : Reg) : s.readReg r = s.x (regIndex r) := by
  cases r <;> rfl

/-- The registers after a register write, by index. -/
theorem State.x_writeReg (s : State) (r : Reg) (v : Word) (n : Nat) (hn : n < 4) :
    (s.writeReg r v).x n = if n = regIndex r then v else s.x n := by
  match n, hn with
  | 0, _ => cases r <;> rfl
  | 1, _ => cases r <;> rfl
  | 2, _ => cases r <;> rfl
  | 3, _ => cases r <;> rfl

/-- Registers read by index depend on the register file alone. -/
theorem State.x_congr {s t : State} (h : t.regs = s.regs) (n : Nat) : t.x n = s.x n := by
  simp only [State.x, h]

theorem regIndex_lt (r : Reg) : regIndex r < 4 := by cases r <;> decide

/-- The register of a 2-bit index has that index. -/
theorem regIndex_regOfIndex (index : BitVec 2) : regIndex (regOfIndex index) = index.toNat := by
  revert index; decide

/-- The reg field selects by its low 2 bits (R12). -/
theorem regIndex_regSel (reg : RegField) : regIndex (regSel reg) = reg.toNat % 4 := by
  simp [regSel, regIndex_regOfIndex, BitVec.extractLsb'_toNat]

/-- The operand field selects by its low 2 bits (R12). -/
theorem regIndex_operandSel (operand : OperandField) : regIndex (operandSel operand) = operand.toNat % 4 := by
  simp [operandSel, regIndex_regOfIndex, BitVec.extractLsb'_toNat]

/-- Zero extension keeps the number (R51). -/
theorem zext16_toNat (operand : OperandField) : (zext16 operand).toNat = operand.toNat := by
  have := operand.isLt
  simp [zext16]; omega

/-- The ALU's sum is the exact sum modulo 2^16 (R93). -/
theorem aluAdd_toNat (a b : Word) : (aluAdd a b).toNat = (a.toNat + b.toNat) % 65536 := by
  simp only [aluAdd, BitVec.toNat_ofInt]; omega

/-- The ALU's difference is the exact difference modulo 2^16, the non-negative remainder (R93). -/
theorem aluSub_toNat (a b : Word) : (aluSub a b).toNat = (65536 + a.toNat - b.toNat) % 65536 := by
  have ha := a.isLt
  have hb := b.isLt
  simp only [aluSub, BitVec.toNat_ofInt]; omega

end Sys2Proof.Machine
end

