-- ==== Sys2Proof/Laws/Step.lean ====
section
/-! SUPPORT. What the phases and the cycle can do, said once each; what each meaning answers. -/

namespace Sys2Proof.Machine

/-! ### The meanings: every one of them answers a next state -/

theorem execHalt_next (reg : RegField) (operand : OperandField) (s : State) :
    execHalt reg operand s = .next s.setHalted := rfl

theorem execLval_next (reg : RegField) (imm8 : OperandField) (s : State) :
    execLval reg imm8 s = .next (s.writeReg (regSel reg) (zext16 imm8)) := rfl

theorem execLoad_next (reg : RegField) (addr8 : OperandField) (s : State) (h : addr8.toNat < 64) :
    execLoad reg addr8 s = .next (s.writeReg (regSel reg) (s.mem.wordAt addr8.toNat)) := by
  simp [execLoad, dataAddress, memRead_eq_some h]

theorem execLoad_raise (reg : RegField) (addr8 : OperandField) (s : State) (h : 64 ≤ addr8.toNat) :
    execLoad reg addr8 s = .next (s.raise .dataOutOfRange) := by
  simp [execLoad, dataAddress, memRead_eq_none h]

theorem execStore_next (reg : RegField) (addr8 : OperandField) (s : State) (h : addr8.toNat < 64) :
    execStore reg addr8 s = .next (s.setMem (s.mem.setWord addr8.toNat (s.readReg (regSel reg)))) := by
  simp [execStore, dataAddress, memWrite_eq_some h]

theorem execStore_raise (reg : RegField) (addr8 : OperandField) (s : State) (h : 64 ≤ addr8.toNat) :
    execStore reg addr8 s = .next (s.raise .dataOutOfRange) := by
  simp [execStore, dataAddress, memWrite_eq_none h]

theorem execAdd_next (reg : RegField) (operand : OperandField) (s : State) :
    execAdd reg operand s =
      .next (s.writeReg (regSel reg) (aluAdd (s.readReg (regSel reg)) (s.readReg (operandSel operand)))) := rfl

theorem execSub_next (reg : RegField) (operand : OperandField) (s : State) :
    execSub reg operand s =
      .next (s.writeReg (regSel reg) (aluSub (s.readReg (regSel reg)) (s.readReg (operandSel operand)))) := rfl

theorem execJmp_next (reg : RegField) (target : OperandField) (s : State) :
    execJmp reg target s = .next (s.setPc (zext16 target)) := rfl

theorem execMov_next (reg : RegField) (operand : OperandField) (s : State) :
    execMov reg operand s = .next (s.writeReg (regSel reg) (s.readReg (operandSel operand))) := rfl

/-! ### The phases -/

/-- A fetch below 64 latches the word at `pc` (R74). -/
theorem fetch_eq_latch {s : State} (h : s.pc.toNat < 64) : fetch s = s.latch (s.mem.wordAt s.pc.toNat) := by
  simp [fetch, fetchAddress, memRead_eq_some h]

/-- A fetch from 64 on raises FETCH_OUT_OF_RANGE (R98). -/
theorem fetch_eq_raise {s : State} (h : 64 ≤ s.pc.toNat) : fetch s = s.raise .fetchOutOfRange := by
  simp [fetch, fetchAddress, memRead_eq_none h]

/-- The execute phase of a word that decodes is the meaning of its instruction (R76). -/
theorem execute_eq_exec {s : State} {i : Instr} (h : decode s.ir = .ok i) : execute s = exec i s := by
  simp [execute, h]

/-- The execute phase of any other word raises INVALID_OPCODE (R97). -/
theorem execute_eq_raise {s : State} {r : DecodeRefusal} (h : decode s.ir = .error r) :
    execute s = .next (s.raise .invalidOpcode) := by
  cases r; simp [execute, h]

/-- A word is an instruction or has an invalid opcode, and nothing else (R56). -/
theorem decode_cases (w : Word) : (∃ i, decode w = .ok i) ∨ ∃ r, decode w = .error r := by
  cases h : decode w
  · exact .inr ⟨_, rfl⟩
  · exact .inl ⟨_, rfl⟩

/-! ### The cycle -/

theorem cycle_of_not_running {s : State} (h : s.runState ≠ .running) : cycle s = .next s := by
  cases hr : s.runState <;> simp_all [cycle]

theorem cycle_of_fetch_raise {s : State} (hr : s.runState = .running) (hp : 64 ≤ s.pc.toNat) :
    cycle s = .next (s.raise .fetchOutOfRange) := by
  simp [cycle, hr, fetch_eq_raise hp]

theorem cycle_of_fetch_latch {s : State} (hr : s.runState = .running) (hp : s.pc.toNat < 64) :
    cycle s = execute (s.latch (s.mem.wordAt s.pc.toNat)) := by
  simp [cycle, hr, fetch_eq_latch hp, ((State.runState_running_iff s).mp hr).2]

/-- Everything a step that answers a next state can do: nothing, when the run has ended; or raise FETCH_OUT_OF_RANGE; or
fetch a word that is no instruction and raise INVALID_OPCODE; or fetch an instruction and run it. -/
theorem step_cases {s t : State} (h : step s = .next t) :
    s.program ≠ none ∧
      ((s.runState ≠ .running ∧ t = s) ∨
       (s.runState = .running ∧ 64 ≤ s.pc.toNat ∧ t = s.raise .fetchOutOfRange) ∨
       (s.runState = .running ∧ s.pc.toNat < 64 ∧ (∃ r, decode (s.mem.wordAt s.pc.toNat) = .error r) ∧
          t = (s.latch (s.mem.wordAt s.pc.toNat)).raise .invalidOpcode) ∨
       (s.runState = .running ∧ s.pc.toNat < 64 ∧ ∃ i, decode (s.mem.wordAt s.pc.toNat) = .ok i ∧
          exec i (s.latch (s.mem.wordAt s.pc.toNat)) = .next t)) := by
  cases hp : s.program with
  | none => simp [step, cycleCommand, hp] at h
  | some p =>
    have hc : cycle s = .next t := by simpa [step, cycleCommand, hp] using h
    refine ⟨by simp, ?_⟩
    by_cases hr : s.runState = .running
    · by_cases hpc : s.pc.toNat < 64
      · rw [cycle_of_fetch_latch hr hpc] at hc
        rcases decode_cases (s.mem.wordAt s.pc.toNat) with ⟨i, hi⟩ | ⟨r, hi⟩
        · rw [execute_eq_exec (i := i) (by simpa using hi)] at hc
          exact .inr (.inr (.inr ⟨hr, hpc, i, hi, hc⟩))
        · rw [execute_eq_raise (r := r) (by simpa using hi)] at hc
          exact .inr (.inr (.inl ⟨hr, hpc, ⟨r, hi⟩, by cases hc; rfl⟩))
      · rw [cycle_of_fetch_raise hr (by omega)] at hc
        exact .inr (.inl ⟨hr, by omega, by cases hc; rfl⟩)
    · rw [cycle_of_not_running hr] at hc
      exact .inl ⟨hr, by cases hc; rfl⟩

end Sys2Proof.Machine
end

