-- ==== Sys2Proof/Laws/Commands.lean ====
section
/-! SUPPORT. What the load's check accepts, and the byte order of a program image. -/

namespace Sys2Proof

/-- The high byte counts 256 (R116). -/
theorem wordOfBytes_toNat (hi lo : Byte) : (wordOfBytes hi lo).toNat = 256 * hi.toNat + lo.toNat := by
  have h1 := hi.isLt
  have h2 := lo.isLt
  simp only [wordOfBytes, BitVec.toNat_or, BitVec.toNat_shiftLeft, BitVec.toNat_setWidth]
  rw [Nat.mod_eq_of_lt (show hi.toNat < 2 ^ 16 by omega), Nat.mod_eq_of_lt (show lo.toNat < 2 ^ 16 by omega),
    Nat.mod_eq_of_lt (by simp only [Nat.shiftLeft_eq]; omega), ← Nat.shiftLeft_add_eq_or_of_lt (by omega)]
  simp only [Nat.shiftLeft_eq]; omega

/-- The bytes of a word give the word back (R66, R116). -/
theorem wordOfBytes_bytes (w : Word) : wordOfBytes (w.extractLsb' 8 8) (w.extractLsb' 0 8) = w := by
  apply BitVec.eq_of_toNat_eq
  have := w.isLt
  rw [wordOfBytes_toNat, BitVec.extractLsb'_toNat, BitVec.extractLsb'_toNat]
  simp only [Nat.shiftRight_eq_div_pow]; omega

end Sys2Proof

namespace Sys2Proof.Machine

/-- An image has words exactly when its number of bytes is even (R116). -/
theorem imageWords_isSome (image : List Byte) : (imageWords image).isSome = decide (image.length % 2 = 0) := by
  induction image using imageWords.induct with
  | case1 => rfl
  | case2 => rfl
  | case3 hi lo rest ih =>
    simp only [imageWords, Option.isSome_map, ih, List.length_cons]
    congr 1; simp only [eq_iff_iff]; omega

/-- The words of an image are half as many as its bytes (R116). -/
theorem imageWords_length {image : List Byte} {p : List Word} (h : imageWords image = some p) :
    image.length = 2 * p.length := by
  induction image using imageWords.induct generalizing p with
  | case1 => cases h; rfl
  | case2 => simp [imageWords] at h
  | case3 hi lo rest ih =>
    simp only [imageWords, Option.map_eq_some_iff] at h
    obtain ⟨q, hq, rfl⟩ := h
    simp only [List.length_cons, ih hq]; omega

/-- Every command answers as its own definition; a command that answers a next state is one of these. -/
theorem runCommands_cons (c : Command) (cs : List Command) (s t : State) (h : runCommand c s = .next t) :
    runCommands (c :: cs) s = runCommands cs t := by
  simp [runCommands, h]

end Sys2Proof.Machine
end

