-- ==== Sys2Proof/Laws/PerInstr.lean ====
section
/-! SUPPORT. The family of LAWS.json: every instruction's word lies in its own row of the opcode table (R52). -/

namespace Sys2Proof.Laws

/-- The word of the instruction matches its row: under the mask `0xF000` it is the row's match value (R52). -/
def MatchesOwnRow.Statement (i : Instr) : Prop :=
  encode i &&& 0xF000 = (codeOf (opcodeOf i)).setWidth 16 <<< 12

theorem matchesOwnRow_of_fields (i : Instr) : MatchesOwnRow.Statement i := by
  have key : ∀ w : Word, w &&& 0xF000 = (w.extractLsb' 12 4).setWidth 16 <<< 12 := by
    intro w
    ext k hk
    interval_cases k <;> simp
  have hop : (encode i).extractLsb' 12 4 = codeOf (opcodeOf i) := by
    apply BitVec.eq_of_toNat_eq
    have h := decodeFields_opcode_toNat (encode i)
    have hr := (regFieldOf i).isLt
    have hp := (operandFieldOf i).isLt
    simp only [decodeFields] at h
    rw [h, encode, encodeFields_toNat]
    simp only
    omega
  unfold MatchesOwnRow.Statement
  rw [key, hop]

theorem MatchesOwnRow.halt (reg : RegField) (operand : OperandField) : Statement (.halt reg operand) :=
  matchesOwnRow_of_fields _
theorem MatchesOwnRow.lval (reg : RegField) (imm8 : OperandField) : Statement (.lval reg imm8) :=
  matchesOwnRow_of_fields _
theorem MatchesOwnRow.load (reg : RegField) (addr8 : OperandField) : Statement (.load reg addr8) :=
  matchesOwnRow_of_fields _
theorem MatchesOwnRow.store (reg : RegField) (addr8 : OperandField) : Statement (.store reg addr8) :=
  matchesOwnRow_of_fields _
theorem MatchesOwnRow.add (reg : RegField) (operand : OperandField) : Statement (.add reg operand) :=
  matchesOwnRow_of_fields _
theorem MatchesOwnRow.sub (reg : RegField) (operand : OperandField) : Statement (.sub reg operand) :=
  matchesOwnRow_of_fields _
theorem MatchesOwnRow.jmp (reg : RegField) (target : OperandField) : Statement (.jmp reg target) :=
  matchesOwnRow_of_fields _
theorem MatchesOwnRow.mov (reg : RegField) (operand : OperandField) : Statement (.mov reg operand) :=
  matchesOwnRow_of_fields _

end Sys2Proof.Laws
end

