-- ==== Sys2Proof/Tests/Slice0.lean ====
section
/-! SUPPORT. Tests of single steps against the spec's vectors (95_test_vectors.md), words written out from the encoding table
(R52), the WellFormed smoke tests, and for each statement with hypotheses a witness that meets them. -/

namespace Sys2Proof.Machine.Tests

/-- The reset state with other registers, `pc` and memory. -/
def at_ (x : RegFile) (pc : Word) (mem : Memory) : State := { State.reset with regs := x, pc := pc, mem := mem }

/-- Registers all 0. -/
def zeros : RegFile := ⟨0, 0, 0, 0⟩

/-- The next state, where there is one. -/
def after (o : Host.Outcome State Fault Refusal) : Option State :=
  match o with
  | .next t => some t
  | .fault _ => none
  | .refused _ => none

/-! ### WellFormed refuses an ill-formed term for each check (R52, R55) -/

theorem test_wf_refuses_halt_reg : WellFormed (.halt 1 0) = false := by decide
theorem test_wf_refuses_halt_operand : WellFormed (.halt 0 1) = false := by decide
theorem test_wf_refuses_lval_reg : WellFormed (.lval 4 0) = false := by decide
theorem test_wf_refuses_load_reg : WellFormed (.load 8 0) = false := by decide
theorem test_wf_refuses_store_reg : WellFormed (.store 12 0) = false := by decide
theorem test_wf_refuses_add_reg : WellFormed (.add 4 0) = false := by decide
theorem test_wf_refuses_add_operand : WellFormed (.add 0 4) = false := by decide
theorem test_wf_refuses_sub_reg : WellFormed (.sub 4 0) = false := by decide
theorem test_wf_refuses_sub_operand : WellFormed (.sub 0 4) = false := by decide
theorem test_wf_refuses_jmp_reg : WellFormed (.jmp 1 0) = false := by decide
theorem test_wf_refuses_mov_reg : WellFormed (.mov 4 0) = false := by decide
theorem test_wf_refuses_mov_operand : WellFormed (.mov 0 128) = false := by decide
theorem test_wf_accepts_canonical : WellFormed (.add 3 3) = true ∧ WellFormed (.lval 3 255) = true := by decide

/-! ### Decoding of words written out bit by bit from R52; expected fields read off R46 -/

theorem test_decode_halt : decode 0b0000111111111111 = .ok (.halt 0b1111 0b11111111) := by decide
theorem test_decode_lval : decode 0b0001110100000111 = .ok (.lval 0b1101 0b00000111) := by decide
theorem test_decode_load : decode 0b0010000100010100 = .ok (.load 0b0001 0b00010100) := by decide
theorem test_decode_store : decode 0b0011001000010101 = .ok (.store 0b0010 0b00010101) := by decide
theorem test_decode_add : decode 0b0100110000000101 = .ok (.add 0b1100 0b00000101) := by decide
theorem test_decode_sub : decode 0b0101000100000000 = .ok (.sub 0b0001 0b00000000) := by decide
theorem test_decode_jmp : decode 0b0110111100010000 = .ok (.jmp 0b1111 0b00010000) := by decide
theorem test_decode_mov : decode 0b0111000011111101 = .ok (.mov 0b0000 0b11111101) := by decide
theorem test_decode_invalid : decode 0b1111000001000000 = .error (.invalidOpcode 0b1111) := by decide
/-- W2: `encode(7, 15, 255)` is `0x7FFF`. -/
theorem test_encode_mov : encode (.mov 15 255) = 0x7FFF := by decide
theorem test_decodeTableWord : decodeTableWord 16 0x13C8 = some (.lval 3 200) := by decide

/-! ### One step each, from the vectors of 95_test_vectors.md -/

/-- VH2. -/
theorem test_halt : (after (step (at_ ⟨1, 2, 3, 4⟩ 0 [(0, 0x0FFF)]))).map (fun t => (t.halted, t.ir, t.pc, t.regs)) =
    some (true, 0x0FFF, 1, ⟨1, 2, 3, 4⟩) := by decide
/-- VD2: the high byte is cleared. -/
theorem test_lval_clears_high_byte : (after (step (at_ ⟨0, 0, 0, 0x1234⟩ 0 [(0, 0x13FF)]))).map (·.regs) =
    some ⟨0, 0, 0, 0x00FF⟩ := by decide
/-- VD3: reg field 13 selects R1. -/
theorem test_lval_alias : (after (step (at_ zeros 0 [(0, 0x1D07)]))).map (·.regs) = some ⟨0, 7, 0, 0⟩ := by decide
/-- VD5: 63 is the last legal address. -/
theorem test_load_last : (after (step (at_ zeros 0 [(0, 0x203F), (63, 0xBEEF)]))).map (·.regs) =
    some ⟨0xBEEF, 0, 0, 0⟩ := by decide
/-- VD6: 64 faults. -/
theorem test_load_faults : (after (step (at_ ⟨7, 0, 0, 0⟩ 0 [(0, 0x2040)]))).map (fun t => (t.fault, t.regs, t.pc)) =
    some (.dataOutOfRange, ⟨7, 0, 0, 0⟩, 1) := by decide
/-- VD9. -/
theorem test_store : (after (step (at_ ⟨0, 0, 0x00C7, 0⟩ 0 [(0, 0x3215)]))).map (·.mem) =
    some [(0, 0x3215), (21, 0x00C7)] := by decide
/-- VD11: a STORE of 0 to its own address completes, and the canonical list drops the cell. -/
theorem test_store_own_address : (after (step (at_ zeros 1 [(1, 0x3001)]))).map (fun t => (t.mem, t.ir, t.pc)) =
    some ([], 0x3001, 2) := by decide
/-- VA3: `ADD R0, R0` doubles modulo 2^16. -/
theorem test_add_doubles : (after (step (at_ ⟨0x8001, 0, 0, 0⟩ 0 [(0, 0x4000)]))).map (·.regs) =
    some ⟨0x0002, 0, 0, 0⟩ := by decide
/-- W4. -/
theorem test_add_wraps : (after (step (at_ ⟨0xFFFF, 1, 0, 0⟩ 0 [(0, 0x4001)]))).map (·.regs) =
    some ⟨0, 1, 0, 0⟩ := by decide
/-- W5. -/
theorem test_sub_wraps : (after (step (at_ ⟨0, 1, 0, 0⟩ 0 [(0, 0x5001)]))).map (·.regs) =
    some ⟨0xFFFF, 1, 0, 0⟩ := by decide
/-- VA8: the register named first minus the register named second. -/
theorem test_sub_order : (after (step (at_ ⟨10, 3, 0, 0⟩ 0 [(0, 0x5100)]))).map (·.regs) =
    some ⟨10, 0xFFF9, 0, 0⟩ := by decide
/-- W9 as corrected by C2: the target overwrites the incremented `pc`. -/
theorem test_jmp_overwrites : (after (step (at_ zeros 0 [(0, 0x6000)]))).map (fun t => (t.pc, t.ir, t.halted)) =
    some (0, 0x6000, false) := by decide
/-- VJ2: the reg field has no effect. -/
theorem test_jmp_ignores_reg : (after (step (at_ zeros 0 [(0, 0x6F10)]))).map (·.pc) = some 16 := by decide
/-- VD14: operand bits 7 to 2 are ignored. -/
theorem test_mov_alias : (after (step (at_ ⟨0, 0x42, 0, 0⟩ 0 [(0, 0x70FD)]))).map (·.regs) =
    some ⟨0x42, 0x42, 0, 0⟩ := by decide
/-- VC2. -/
theorem test_fetch_faults : (after (step (at_ zeros 64 []))).map (fun t => (t.fault, t.pc, t.ir)) =
    some (.fetchOutOfRange, 64, 0) := by decide
/-- VI4: INVALID_OPCODE and not DATA_OUT_OF_RANGE. -/
theorem test_invalid_opcode : (after (step (at_ zeros 0 [(0, 0xF040)]))).map (fun t => (t.fault, t.ir, t.pc)) =
    some (.invalidOpcode, 0xF040, 1) := by decide
/-- VC7: EXECUTE straight after reset runs `ir = 0`, a HALT. -/
theorem test_execute_without_fetch : (after (runCommand .execute State.reset)).map (fun t => (t.halted, t.pc)) =
    some (true, 0) := by decide
/-- LD4: the reset state's first cycle halts with `pc = 1`. -/
theorem test_reset_step : (after (step State.reset)).map (fun t => (t.halted, t.pc, t.ir)) = some (true, 1, 0) := by decide
/-- The placed word is the first instruction after reset (log 12). -/
theorem test_withFetchWord : (after (step (State.reset.withFetchWord 16 0x1005))).map (·.regs) =
    some ⟨5, 0, 0, 0⟩ := by decide

/-! ### Load and assembler vectors -/

/-- LD1, LD2, LD5. -/
theorem test_load_images : checkImage [0x10, 0x05, 0x00] = .error .oddLength ∧
    checkImage (List.replicate 130 0) = .error .tooLong ∧ checkImage [0x12, 0x34] = .ok [0x1234] := by decide
/-- AS2. -/
theorem test_assemble_blanks : assemble "  ADD   R2 ,R3  ".toList = .ok [0x42, 0x03] := by decide
/-- AS8. -/
theorem test_assemble_crlf : assemble "LVAL R0, 5\r\nHALT\r\n".toList = .ok [0x10, 0x05, 0x00, 0x00] := by decide
/-- AS10. -/
theorem test_assemble_unknown : assemble "LVAL R0, 5\nBOGUS\nHALT".toList =
    .error ⟨2, .unknownMnemonic "BOGUS".toList⟩ := by decide
/-- AS11, AS12, AS15, AS20, AS24, AS26: each is an error. -/
theorem test_assemble_errors : assemble "MOV R4, R0".toList = .error ⟨1, .badRegister "R4".toList⟩ ∧
    assemble "JMP 64".toList = .error ⟨1, .addressOutOfRange "64".toList⟩ ∧
    assemble "LVAL R0, 256".toList = .error ⟨1, .badNumber "256".toList⟩ ∧
    assemble "HALT R0".toList = .error ⟨1, .wrongArgumentCount 1⟩ ∧
    assemble "ADD R0, 1".toList = .error ⟨1, .badRegister "1".toList⟩ ∧
    assemble " ; indented".toList = .error ⟨1, .unknownMnemonic ";".toList⟩ := by decide
/-- AS7, AS14. -/
theorem test_assemble_comments : assemble "; comment\n\nHALT\n   \n".toList = .ok [0, 0] ∧
    assemble "LVAL R0, 255".toList = .ok [0x10, 0xFF] := by decide

/-! ### Witnesses: concrete states and operands that meet the hypotheses of each statement -/

/-- A Running state whose word at `pc` is `w`. -/
def running (pc w : Word) : State := at_ ⟨1, 2, 3, 4⟩ pc [(pc.toNat, w)]

theorem running_canCycle (pc w : Word) : (running pc w).CanCycle := ⟨rfl, by simp [running, at_, State.reset]⟩

/-- A state that no longer runs. -/
def halted : State := (running 4 0x1001).setHalted

/-- A Faulted state. -/
def faulted : State := (running 64 0).raise .fetchOutOfRange

theorem witness_FieldsOfThePackedWord : 15 < 16 ∧ 15 < 16 ∧ 255 < 256 := by decide

theorem witness_EncodeOfDecodeIsTheWord : decode 0x7FFF = .ok (.mov 15 255) := by decide

theorem witness_InvalidInstructionsAreTheUpperHalf :
    8 ≤ ({ State.reset with ir := 0x8000 } : State).ir.toNat / 4096 ∧
    8 ≤ ({ State.reset with ir := 0xFFFF } : State).ir.toNat / 4096 := by decide

theorem witness_IgnoredBitsDoNothing :
    (13 : RegField).toNat % 4 = (1 : RegField).toNat % 4 ∧ (253 : OperandField).toNat % 4 = (1 : OperandField).toNat % 4 := by
  decide

theorem witness_HaltSetsTheHaltedFlagOnly : (0x0FFF : Word).toNat / 4096 = 0 ∧ (running 0 0).setHalted.program ≠ none ∧
    step (running 3 0) = .next ((running 3 0).latch 0).setHalted ∧ (running 3 0).halted = false ∧
    ((running 3 0).latch 0).setHalted.halted = true := ⟨by decide, by decide, rfl, rfl, rfl⟩

theorem witness_LvalWritesTheZeroExtendedImmediate : (0x1FFF : Word).toNat / 4096 = 1 := by decide

theorem witness_LoadReadsTheAddressedWordOrFaults : (0x2000 : Word).toNat / 4096 = 2 ∧
    (63 : OperandField).toNat < 64 ∧ 64 ≤ (64 : OperandField).toNat ∧ 64 ≤ (255 : OperandField).toNat := by decide

theorem witness_StoreWritesTheAddressedWordOrFaults : (0x3FFF : Word).toNat / 4096 = 3 ∧
    (63 : OperandField).toNat < 64 ∧ 64 ≤ (64 : OperandField).toNat ∧ 64 ≤ (255 : OperandField).toNat := by decide

theorem witness_MovCopiesTheRegister : (0x7000 : Word).toNat / 4096 = 7 := by decide

theorem witness_AddWritesTheSumModulo : (0x4FFF : Word).toNat / 4096 = 4 := by decide

theorem witness_SubWritesTheDifferenceModulo : (0x5FFF : Word).toNat / 4096 = 5 := by decide

/-- JMP 64 from a Running state leaves a state that can cycle. -/
theorem witness_JmpReplacesThePc : (0x6040 : Word).toNat / 4096 = 6 ∧ 64 ≤ (64 : OperandField).toNat ∧
    exec (.jmp 0 64) (running 1 0x6040) = .next ((running 1 0x6040).setPc 64) ∧
    ((running 1 0x6040).setPc 64).CanCycle :=
  ⟨by decide, by decide, rfl, rfl, by decide⟩

theorem witness_StepRunsTheDecodedInstruction : (running 63 0x4001).CanCycle ∧ (running 63 0x4001).pc.toNat < 64 ∧
    decode ((running 63 0x4001).mem.wordAt (running 63 0x4001).pc.toNat) = .ok (.add 0 1) :=
  ⟨running_canCycle _ _, by decide, by decide⟩

theorem witness_FetchLatchesTheWordOrFaults : (running 63 1).pc.toNat < 64 ∧ 64 ≤ (running 64 1).pc.toNat ∧
    64 ≤ (running 0xFFFF 1).pc.toNat := by decide

theorem witness_InvalidOpcodeFaultEntry : (running 7 0x9123).CanCycle ∧ (running 7 0x9123).pc.toNat < 64 ∧
    8 ≤ ((running 7 0x9123).mem.wordAt (running 7 0x9123).pc.toNat).toNat / 4096 :=
  ⟨running_canCycle _ _, by decide, by decide⟩

theorem witness_FetchOutOfRangeFaultEntry : (running 64 0).CanCycle ∧ 64 ≤ (running 64 0).pc.toNat :=
  ⟨running_canCycle _ _, by decide⟩

theorem witness_DataOutOfRangeFaultEntry : (running 0 0x3340).CanCycle ∧ (running 0 0x3340).pc.toNat < 64 ∧
    (((running 0 0x3340).mem.wordAt (running 0 0x3340).pc.toNat).toNat / 4096 = 2 ∨
      ((running 0 0x3340).mem.wordAt (running 0 0x3340).pc.toNat).toNat / 4096 = 3) ∧
    64 ≤ ((running 0 0x3340).mem.wordAt (running 0 0x3340).pc.toNat).toNat % 256 :=
  ⟨running_canCycle _ _, by decide, by decide, by decide⟩

/-- The other disjunct: a LOAD at the boundary. -/
theorem witness_DataOutOfRangeFaultEntry_load : (running 0 0x2040).CanCycle ∧ (running 0 0x2040).pc.toNat < 64 ∧
    ((running 0 0x2040).mem.wordAt (running 0 0x2040).pc.toNat).toNat / 4096 = 2 ∧
    64 ≤ ((running 0 0x2040).mem.wordAt (running 0 0x2040).pc.toNat).toNat % 256 :=
  ⟨running_canCycle _ _, by decide, by decide, by decide⟩

theorem witness_CycleRaisesTheFirstFaultInOrder : (running 0 0xF040).CanCycle := running_canCycle _ _

/-- One witness for each cause. -/
theorem witness_FaultsArePrecise_fetch : (running 64 0).CanCycle ∧
    step (running 64 0) = .next ((running 64 0).raise .fetchOutOfRange) ∧
    ((running 64 0).raise .fetchOutOfRange).fault = .fetchOutOfRange := ⟨running_canCycle _ _, rfl, rfl⟩

theorem witness_FaultsArePrecise_opcode : (running 0 0x8000).CanCycle ∧
    step (running 0 0x8000) = .next (((running 0 0x8000).latch 0x8000).raise .invalidOpcode) ∧
    (((running 0 0x8000).latch 0x8000).raise .invalidOpcode).fault = .invalidOpcode :=
  ⟨running_canCycle _ _, rfl, rfl⟩

theorem witness_FaultsArePrecise_data : (running 0 0x20FF).CanCycle ∧
    step (running 0 0x20FF) = .next (((running 0 0x20FF).latch 0x20FF).raise .dataOutOfRange) ∧
    (((running 0 0x20FF).latch 0x20FF).raise .dataOutOfRange).fault = .dataOutOfRange :=
  ⟨running_canCycle _ _, rfl, rfl⟩

/-- At the boundary values: the last address plus one, the last opcode, a STORE to 64. -/
theorem witness_HostFindsTheCauseOfAFault :
    (∃ t, (running 64 7).CanCycle ∧ step (running 64 7) = .next t ∧ t.fault = .fetchOutOfRange) ∧
    (∃ t, (running 63 0xFFFF).CanCycle ∧ step (running 63 0xFFFF) = .next t ∧ t.fault = .invalidOpcode) ∧
    (∃ t, (running 63 0x3340).CanCycle ∧ step (running 63 0x3340) = .next t ∧ t.fault = .dataOutOfRange) :=
  ⟨⟨_, running_canCycle _ _, rfl, rfl⟩, ⟨_, running_canCycle _ _, rfl, rfl⟩, ⟨_, running_canCycle _ _, rfl, rfl⟩⟩

theorem witness_FaultFreeCycleWritesOneMoreElement : (running 0 0x1005).CanCycle ∧
    step (running 0 0x1005) = .next (((running 0 0x1005).latch 0x1005).writeReg .R0 5) ∧
    (((running 0 0x1005).latch 0x1005).writeReg .R0 5).fault = .none ∧ writtenElement (.lval 0 5) ≠ .pc :=
  ⟨running_canCycle _ _, rfl, rfl, by decide⟩

theorem witness_EndedBlockTakesNoStep : halted.program ≠ none ∧ halted.Ended ∧ faulted.program ≠ none ∧ faulted.Ended :=
  ⟨by decide, show _ ≠ _ by decide, by decide, show _ ≠ _ by decide⟩

theorem witness_EndedStatesAreTerminal : faulted.program ≠ none ∧ faulted.Ended ∧
    ∀ c ∈ [Command.cycle, .fetch, .execute], c = .cycle ∨ c = .fetch ∨ c = .execute :=
  ⟨by decide, show _ ≠ _ by decide, by decide⟩

theorem witness_FetchThenExecuteIsOneCycle :
    runCommand .fetch (running 0 0x1005) = .next ((running 0 0x1005).latch 0x1005) ∧
    (running 63 0x1005).CanCycle ∧ (running 63 0x1005).pc.toNat < 64 := ⟨rfl, running_canCycle _ _, by decide⟩

theorem witness_PhasesDoTheirRuleWhateverCameBefore : (running 62 0).CanCycle ∧ (running 62 0).pc.toNat + 1 < 64 ∧
    ((running 62 0).latch 0x1005).CanCycle ∧ decode ((running 62 0).latch 0x1005).ir = .ok (.lval 0 5) ∧
    runCommand .reset halted = .next (State.resetFrom []) :=
  ⟨running_canCycle _ _, by decide, ⟨rfl, by decide⟩, by decide, rfl⟩

theorem witness_ContractSequencesAreCycleSequences :
    hostKeepsContract [.load [0x10, 0x05], .fetch, .execute, .cycle, .reset] = true := by decide

/-- HALT sets the flag by a cycle, and RESET clears it. -/
theorem witness_OnlyHaltSetsAndOnlyResetClearsHalted :
    runCommand .cycle (running 3 0) = .next ((running 3 0).latch 0).setHalted ∧ (running 3 0).halted = false ∧
    ((running 3 0).latch 0).setHalted.halted = true ∧
    runCommand .reset halted = .next (State.resetFrom []) ∧ halted.halted = true ∧ (State.resetFrom []).halted = false :=
  ⟨rfl, rfl, rfl, rfl, rfl, rfl⟩

theorem witness_OnlyJmpLeavesStraightLineOrder : (running 63 0x1005).CanCycle ∧ (running 63 0x1005).pc.toNat < 64 ∧
    step (running 63 0x1005) = .next (((running 63 0x1005).latch 0x1005).writeReg .R0 5) ∧
    ((running 63 0x1005).mem.wordAt (running 63 0x1005).pc.toNat).toNat / 4096 ≠ 6 :=
  ⟨running_canCycle _ _, by decide, rfl, by decide⟩

theorem witness_OnlyStoreAndResetWriteMemory :
    runCommand .cycle (running 0 0x323F) = .next (((running 0 0x323F).latch 0x323F).setMem [(0, 0x323F), (63, 3)]) ∧
    (((running 0 0x323F).latch 0x323F).setMem [(0, 0x323F), (63, 3)]).mem.wordAt 63 ≠ (running 0 0x323F).mem.wordAt 63 :=
  ⟨rfl, by decide⟩

/-- A memory that differs from the state's only at an address the cycle does not read. -/
theorem witness_CycleReadsOnlyItsAddresses :
    (∀ a, (running 0 0x1005).cycleReads a → Memory.wordAt [(0, 0x1005), (9, 9)] a = (running 0 0x1005).mem.wordAt a) ∧
    step (running 0 0x1005) = .next (((running 0 0x1005).latch 0x1005).writeReg .R0 5) := by
  refine ⟨?_, rfl⟩
  rintro a (rfl | ⟨reg, addr8, h, -⟩)
  · decide
  · have h' : decode ((running 0 0x1005).mem.wordAt (running 0 0x1005).pc.toNat) = .ok (.lval 0 5) := by decide
    rw [h'] at h
    cases h

/-- A STORE of R0 to address 3; the word after it stores R1 to another address. -/
def storing : State := at_ ⟨1, 2, 3, 4⟩ 1 [(1, 0x3003), (2, 0x313F)]

/-- The state after the first STORE. -/
def stored : State := (storing.latch 0x3003).setMem [(1, 0x3003), (2, 0x313F), (3, 1)]

theorem witness_StoreIsSeenByEveryLaterFetch : storing.CanCycle ∧ storing.pc.toNat < 64 ∧ (3 : OperandField).toNat < 64 ∧
    decode (storing.mem.wordAt storing.pc.toNat) = .ok (.store 0 3) ∧ step storing = .next stored ∧
    (∀ c ∈ [Command.cycle], c = .cycle ∨ c = .fetch ∨ c = .execute) ∧
    stored.NeverStoresTo (dataAddress 3) [.cycle] := by
  refine ⟨⟨rfl, by decide⟩, by decide, by decide, by decide, rfl, by simp, ?_⟩
  intro before after c v hcs hv
  cases before with
  | nil =>
    cases hcs
    cases hv
    decide
  | cons d ds => simp at hcs

/-- After the second STORE, to address 63, the block is Running at address 3. -/
theorem witness_StoreIsSeenByEveryLaterFetch_after :
    (after (runCommands [.cycle] stored)).map (fun u => (u.runState, u.pc.toNat, u.mem.wordAt 63)) =
      some (.running, dataAddress 3, 2) := by decide

/-- The very next cycle's fetch: a STORE to the address `pc` then holds. -/
theorem witness_StoreIsSeenByEveryLaterFetch_next : (running 1 0x3002).CanCycle ∧ (running 1 0x3002).pc.toNat < 64 ∧
    (2 : OperandField).toNat < 64 ∧
    decode ((running 1 0x3002).mem.wordAt (running 1 0x3002).pc.toNat) = .ok (.store 0 2) ∧
    step (running 1 0x3002) = .next (((running 1 0x3002).latch 0x3002).setMem [(1, 0x3002), (2, 1)]) ∧
    (((running 1 0x3002).latch 0x3002).setMem [(1, 0x3002), (2, 1)]).pc.toNat = dataAddress 2 ∧
    (((running 1 0x3002).latch 0x3002).setMem [(1, 0x3002), (2, 1)]).NeverStoresTo (dataAddress 2) [] :=
  ⟨running_canCycle _ _, by decide, by decide, by decide, rfl, by decide, fun _ _ _ _ h => by simp at h⟩

theorem witness_JmpToItselfNeverEnds : (running 5 0x6005).CanCycle ∧ (running 5 0x6005).pc.toNat < 64 ∧
    decode ((running 5 0x6005).mem.wordAt (running 5 0x6005).pc.toNat) = .ok (.jmp 0 5) ∧
    (5 : OperandField).toNat = (running 5 0x6005).pc.toNat := ⟨running_canCycle _ _, by decide, by decide, by decide⟩

theorem witness_RunHasOneResult : (running 3 0).HaltsAfter 1 ((running 3 0).latch 0).setHalted ∧
    (running 3 0).HaltsAfter 2 ((running 3 0).latch 0).setHalted := ⟨⟨rfl, rfl⟩, ⟨rfl, rfl⟩⟩

/-- A legal state other than the reset state. -/
theorem running_legal : (running 0 0x1005).Legal := ⟨by decide, by decide, by decide, by decide⟩

theorem witness_EveryStepKeepsLegality : (running 0 0x1005).Legal ∧
    step (running 0 0x1005) = .next (((running 0 0x1005).latch 0x1005).writeReg .R0 5) := ⟨running_legal, rfl⟩

theorem witness_EveryCommandKeepsLegality : (running 0 0x1005).Legal ∧
    runCommand .fetch (running 0 0x1005) = .next ((running 0 0x1005).latch 0x1005) := ⟨running_legal, rfl⟩

theorem witness_CanonicalMemoriesWithEqualWordsAreEqual : Memory.wf [(0, 1), (63, 2)] ∧ Memory.wf [(0, 1), (63, 2)] ∧
    ∀ a < 64, Memory.wordAt [(0, 1), (63, 2)] a = Memory.wordAt [(0, 1), (63, 2)] a :=
  ⟨by decide, by decide, fun _ _ => rfl⟩

theorem witness_ResetBuildsTheInitialState :
    ({ halted with program := some [0x1000, 0x3001] } : State).program = some [0x1000, 0x3001] ∧
    [0x1000, (0x3001 : Word)].length ≤ 64 ∧ 1 < [0x1000, (0x3001 : Word)].length := by decide

theorem witness_LoadAcceptsOrRefusesTheImage : (List.replicate 128 (0x12 : Byte)).length % 2 = 0 ∧
    (List.replicate 128 (0x12 : Byte)).length ≤ 128 ∧ [(0x10 : Byte), 0x05, 0x00].length % 2 = 1 ∧
    128 < (List.replicate 130 (0 : Byte)).length := by simp

theorem witness_OnlyLoadHasAStepBeforeTheFirstLoad : ({ State.reset with program := none } : State).program = none ∧
    ∀ image, Command.cycle ≠ .load image := ⟨rfl, by simp⟩

theorem witness_PlacedWordRunsNext : decode (BitVec.ofNat 16 0x1005) = .ok (.lval 0 5) ∧ (running 63 0).CanCycle ∧
    (running 63 0).pc.toNat < 64 := ⟨by decide, running_canCycle _ _, by decide⟩

theorem witness_MnemonicLinesAssembleToTheirWords : 3 < 4 ∧ 255 < 256 ∧ 63 < 64 ∧ mnemonicOf ['S', 'U', 'B'] ≠ none := by
  decide

theorem witness_RegisterTokensAreExactlyFour : ['R', '3'] = registerText 3 ∧ ∀ n < 4, ['R', '4'] ≠ registerText n := by
  decide

theorem witness_NumbersAreDecimalAndBounded :
    (∀ c ∈ ['2', '5', '5'], 48 ≤ c.toNat ∧ c.toNat ≤ 57) ∧
    ['2', '5', '5'].foldl (fun n c => 10 * n + (c.toNat - 48)) 0 = 255 ∧
    255 < ['2', '5', '6'].foldl (fun n c => 10 * n + (c.toNat - 48)) 0 ∧
    ['6', '3'].foldl (fun n c => 10 * n + (c.toNat - 48)) 0 < 64 ∧
    64 ≤ ['6', '4'].foldl (fun n c => 10 * n + (c.toNat - 48)) 0 ∧
    ¬ (∀ c ∈ ['0', 'x'], 48 ≤ c.toNat ∧ c.toNat ≤ 57) := by simp

theorem witness_BlanksAroundArgumentsAreIgnored : mnemonicOf ['L', 'O', 'A', 'D'] ≠ none ∧ Blank [] ∧ Blank ['\t', ' '] ∧
    ArgumentToken ['R', '3'] ∧ ArgumentToken ['6', '3'] := by
  simp [mnemonicOf, Blank, ArgumentToken]

theorem witness_AssembledInstructionsAreCanonicalAndInRange :
    assembleInstrs "LOAD R1, 63\nJMP 63".toList = .ok [.load 1 63, .jmp 0 63] := by decide

theorem witness_AssembledImageLoadsBack : assembleInstrs "HALT".toList = .ok [.halt 0 0] ∧ [Instr.halt 0 0].length ≤ 64 := by
  decide

/-- 65 lines assemble; the load refuses the image (D23). -/
theorem witness_AssembledImageLoadsBack_oversized :
    (match assembleInstrs (List.replicate 65 ['H', 'A', 'L', 'T', '\n']).flatten with
      | .ok is => decide (64 < is.length)
      | .error _ => false) = true := by decide

theorem witness_FirstBadLineFailsTheRun :
    sourceLines "HALT\nBOGUS\nHALT".toList = ["HALT".toList] ++ "BOGUS".toList :: ["HALT".toList] ∧
    assembleLine "HALT".toList = .ok (some (.halt 0 0)) ∧
    assembleLine "BOGUS".toList = .error (.unknownMnemonic "BOGUS".toList) := by decide

theorem witness_SourcesAssembleIndependently : assembleInstrs "HALT".toList = .ok [.halt 0 0] ∧
    assembleInstrs "JMP 1".toList = .ok [.jmp 0 1] := by decide

theorem witness_SourceWithoutInstructionsHaltsAtOnce :
    sourceLines "; c\n \t".toList = [[';', ' ', 'c'], [' ', '\t']] ∧ ∀ c ∈ [' ', '\t'], c = ' ' ∨ c = '\t' := ⟨by decide, by simp⟩

end Sys2Proof.Machine.Tests
end

section
/-! SUPPORT. What the execute phase and each command of the host can do, said once each: the inversions from which the
proofs below, about legal states and about the halted flag, are derived. -/

namespace Sys2Proof.Machine

/-! ### The arms of `exec` -/

theorem exec_halt (reg : RegField) (operand : OperandField) (s : State) :
    exec (.halt reg operand) s = execHalt reg operand s := rfl
theorem exec_lval (reg : RegField) (imm8 : OperandField) (s : State) :
    exec (.lval reg imm8) s = execLval reg imm8 s := rfl
theorem exec_load (reg : RegField) (addr8 : OperandField) (s : State) :
    exec (.load reg addr8) s = execLoad reg addr8 s := rfl
theorem exec_store (reg : RegField) (addr8 : OperandField) (s : State) :
    exec (.store reg addr8) s = execStore reg addr8 s := rfl
theorem exec_add (reg : RegField) (operand : OperandField) (s : State) :
    exec (.add reg operand) s = execAdd reg operand s := rfl
theorem exec_sub (reg : RegField) (operand : OperandField) (s : State) :
    exec (.sub reg operand) s = execSub reg operand s := rfl
theorem exec_jmp (reg : RegField) (target : OperandField) (s : State) :
    exec (.jmp reg target) s = execJmp reg target s := rfl
theorem exec_mov (reg : RegField) (operand : OperandField) (s : State) :
    exec (.mov reg operand) s = execMov reg operand s := rfl

/-! ### The execute phase -/

/-- The five ways a meaning can end: one register written; one memory word below 64 written, by a STORE; `pc` written, by
a JMP; `halted` set, by a HALT; DATA_OUT_OF_RANGE raised, by a LOAD or a STORE from address 64 on (R77, R85 to R94). -/
theorem exec_cases {i : Instr} {s t : State} (h : exec i s = .next t) :
    (∃ r v, t = s.writeReg r v) ∨
    (∃ reg addr8, i = .store reg addr8 ∧ addr8.toNat < 64 ∧
      t = s.setMem (s.mem.setWord addr8.toNat (s.readReg (regSel reg)))) ∨
    (∃ reg target, i = .jmp reg target ∧ t = s.setPc (zext16 target)) ∨
    (∃ reg operand, i = .halt reg operand ∧ t = s.setHalted) ∨
    (∃ a, accessedAddress i = some a ∧ 64 ≤ a ∧ t = s.raise .dataOutOfRange) := by
  cases i with
  | halt reg operand => cases h; exact .inr (.inr (.inr (.inl ⟨_, _, rfl, rfl⟩)))
  | lval reg imm8 => cases h; exact .inl ⟨_, _, rfl⟩
  | load reg addr8 =>
    rw [exec_load] at h
    rcases Nat.lt_or_ge addr8.toNat 64 with ha | ha
    · rw [execLoad_next _ _ _ ha] at h
      cases h; exact .inl ⟨_, _, rfl⟩
    · rw [execLoad_raise _ _ _ ha] at h
      cases h; exact .inr (.inr (.inr (.inr ⟨_, rfl, ha, rfl⟩)))
  | store reg addr8 =>
    rw [exec_store] at h
    rcases Nat.lt_or_ge addr8.toNat 64 with ha | ha
    · rw [execStore_next _ _ _ ha] at h
      cases h; exact .inr (.inl ⟨_, _, rfl, ha, rfl⟩)
    · rw [execStore_raise _ _ _ ha] at h
      cases h; exact .inr (.inr (.inr (.inr ⟨_, rfl, ha, rfl⟩)))
  | add reg operand => cases h; exact .inl ⟨_, _, rfl⟩
  | sub reg operand => cases h; exact .inl ⟨_, _, rfl⟩
  | jmp reg target => cases h; exact .inr (.inr (.inl ⟨_, _, rfl, rfl⟩))
  | mov reg operand => cases h; exact .inl ⟨_, _, rfl⟩

/-- The execute phase runs the instruction in `ir`, or raises INVALID_OPCODE (R76, R97). -/
theorem execute_cases {s t : State} (h : execute s = .next t) :
    (∃ i, decode s.ir = .ok i ∧ exec i s = .next t) ∨
    (∃ r, decode s.ir = .error r ∧ t = s.raise .invalidOpcode) := by
  rcases decode_cases s.ir with ⟨i, hi⟩ | ⟨r, hr⟩
  · exact .inl ⟨i, hi, by rwa [execute_eq_exec hi] at h⟩
  · rw [execute_eq_raise hr] at h
    cases h; exact .inr ⟨r, hr, rfl⟩

/-- The opcode field of a word that decodes is the code of its instruction (R52). -/
theorem opcode_of_decode_ok {w : Word} {i : Instr} (h : decode w = .ok i) :
    w.toNat / 4096 = (codeOf (opcodeOf i)).toNat := by
  rw [← decodeFields_opcode_toNat, ((decode_eq_ok w i).mp h).1]

/-- A step from a Running state below address 64 is the execute phase on the latched word. -/
theorem step_eq_execute_latch {s : State} (hp : s.program ≠ none) (hr : s.runState = .running)
    (hpc : s.pc.toNat < 64) : step s = execute (s.latch (s.mem.wordAt s.pc.toNat)) := by
  obtain ⟨p, hp⟩ := Option.ne_none_iff_exists'.mp hp
  simp [step, cycleCommand, hp, cycle_of_fetch_latch hr hpc]

/-- The latch of a fetched word leaves the run state. -/
theorem runState_latch (s : State) (w : Word) : (s.latch w).runState = s.runState :=
  State.runState_congr rfl rfl

/-! ### The commands -/

/-- LOAD resets from an accepted program or changes nothing (R117). -/
theorem loadImage_cases {image : List Byte} {s t : State} (h : runCommand (.load image) s = .next t) :
    t = s ∨ ∃ p, checkImage image = .ok p ∧ t = State.resetFrom p := by
  simp only [runCommand, loadImage] at h
  split at h
  next p hp => cases h; exact .inr ⟨p, hp, rfl⟩
  next => cases h; exact .inl rfl

/-- RESET resets from the recorded program (R118). -/
theorem resetCommand_cases {s t : State} (h : runCommand .reset s = .next t) :
    ∃ p, s.program = some p ∧ t = State.resetFrom p := by
  simp only [runCommand, resetCommand] at h
  split at h
  next p hp => cases h; exact ⟨p, hp, rfl⟩
  next => cases h

/-- FETCH changes nothing after the end of a run, and is the fetch phase before it (R80, R81). -/
theorem fetchCommand_cases {s t : State} (h : runCommand .fetch s = .next t) :
    (s.runState ≠ .running ∧ t = s) ∨ (s.runState = .running ∧ t = fetch s) := by
  simp only [runCommand, fetchCommand, fetchPhase] at h
  split at h
  next =>
    split at h
    next hr => cases h; exact .inr ⟨hr, rfl⟩
    next hr => cases h; exact .inl ⟨hr, rfl⟩
  next => cases h

/-- EXECUTE changes nothing after the end of a run, and is the execute phase before it (R80, R81). -/
theorem executeCommand_cases {s t : State} (h : runCommand .execute s = .next t) :
    (s.runState ≠ .running ∧ t = s) ∨ (s.runState = .running ∧ execute s = .next t) := by
  simp only [runCommand, executeCommand, executePhase] at h
  split at h
  next =>
    split at h
    next hr => exact .inr ⟨hr, h⟩
    next hr => cases h; exact .inl ⟨hr, rfl⟩
  next => cases h

/-- A program that the load's check accepts has at most 64 words (R115). -/
theorem length_le_of_checkImage {image : List Byte} {p : Program} (h : checkImage image = .ok p) :
    p.length ≤ Config.maxProgramWords := by
  unfold checkImage at h
  split at h
  next => cases h
  next =>
    split at h
    next hp => cases h; exact hp
    next => cases h

end Sys2Proof.Machine
end

section
/-! SUPPORT. Legal states: every operation of the state that a command uses keeps a state legal, then each phase does. -/

namespace Sys2Proof.Machine

/-! ### The operations of the state -/

theorem legal_resetFrom {p : Program} (hp : p.length ≤ Config.maxProgramWords) : (State.resetFrom p).Legal where
  memCanonical := Memory.wf_ofWordsFrom (by simpa using hp)
  programFits := by simpa using hp
  pcBound := by simp
  oneEnd := by simp

theorem legal_writeReg {s : State} (h : s.Legal) (r : Reg) (v : Word) : (s.writeReg r v).Legal :=
  ⟨h.memCanonical, h.programFits, h.pcBound, h.oneEnd⟩

theorem legal_setMem {s : State} (h : s.Legal) {m : Memory} (hm : m.wf) : (s.setMem m).Legal :=
  ⟨hm, h.programFits, h.pcBound, h.oneEnd⟩

theorem legal_setPc {s : State} (h : s.Legal) {v : Word} (hv : v.toNat ≤ 255) : (s.setPc v).Legal :=
  ⟨h.memCanonical, h.programFits, hv, h.oneEnd⟩

/-- A fetch below address 64 leaves at most 64 in `pc`. -/
theorem legal_latch {s : State} (h : s.Legal) (hpc : s.pc.toNat < 64) (w : Word) : (s.latch w).Legal where
  memCanonical := h.memCanonical
  programFits := h.programFits
  pcBound := by rw [State.latch_pc]; bv_omega
  oneEnd := h.oneEnd

/-- A fault entered from Running finds `halted` clear (R24). -/
theorem legal_raise {s : State} (h : s.Legal) (hr : s.runState = .running) (c : FaultStatus) : (s.raise c).Legal where
  memCanonical := h.memCanonical
  programFits := h.programFits
  pcBound := h.pcBound
  oneEnd := by simp [((State.runState_running_iff s).mp hr).1]

/-- A HALT run from Running finds no fault (R24). -/
theorem legal_setHalted {s : State} (h : s.Legal) (hr : s.runState = .running) : s.setHalted.Legal where
  memCanonical := h.memCanonical
  programFits := h.programFits
  pcBound := h.pcBound
  oneEnd := by simp [((State.runState_running_iff s).mp hr).2]

/-! ### The phases -/

theorem legal_exec {i : Instr} {s t : State} (h : s.Legal) (hr : s.runState = .running) (ht : exec i s = .next t) :
    t.Legal := by
  obtain ⟨r, v, rfl⟩ | ⟨_, _, _, ha, rfl⟩ | ⟨_, target, _, rfl⟩ | ⟨_, _, _, rfl⟩ | ⟨_, _, _, rfl⟩ := exec_cases ht
  · exact legal_writeReg h r v
  · exact legal_setMem h (Memory.wf_setWord h.memCanonical ha _)
  · exact legal_setPc h (by rw [zext16_toNat]; exact Nat.le_of_lt_succ target.isLt)
  · exact legal_setHalted h hr
  · exact legal_raise h hr _

theorem legal_execute {s t : State} (h : s.Legal) (hr : s.runState = .running) (ht : execute s = .next t) :
    t.Legal := by
  obtain ⟨_, _, hexec⟩ | ⟨_, _, rfl⟩ := execute_cases ht
  · exact legal_exec h hr hexec
  · exact legal_raise h hr _

theorem legal_fetch {s : State} (h : s.Legal) (hr : s.runState = .running) : (fetch s).Legal := by
  rcases Nat.lt_or_ge s.pc.toNat 64 with hpc | hpc
  · rw [fetch_eq_latch hpc]; exact legal_latch h hpc _
  · rw [fetch_eq_raise hpc]; exact legal_raise h hr _

/-! ### The settled statements -/

/-- Settles O38: each way a step can go is a fetch that keeps legality, then an execute phase from a Running state. -/
theorem everyStepKeepsLegality : Obligations.EveryStepKeepsLegality := by
  intro s t h hstep
  obtain ⟨_, ⟨_, rfl⟩ | ⟨hr, _, rfl⟩ | ⟨hr, hpc, _, rfl⟩ | ⟨hr, hpc, _, _, hexec⟩⟩ := step_cases hstep
  · exact h
  · exact legal_raise h hr _
  · exact legal_raise (legal_latch h hpc _) ((runState_latch s _).trans hr) _
  · exact legal_exec (legal_latch h hpc _) ((runState_latch s _).trans hr) hexec

/-- Settles O39: LOAD and RESET build a legal state from a program that fits, CYCLE is O38, and FETCH and EXECUTE act
from a Running state only. -/
theorem everyCommandKeepsLegality : Obligations.EveryCommandKeepsLegality := by
  intro c s t h hc
  cases c with
  | load image =>
    obtain rfl | ⟨p, hp, rfl⟩ := loadImage_cases hc
    · exact h
    · exact legal_resetFrom (length_le_of_checkImage hp)
  | reset =>
    obtain ⟨p, hp, rfl⟩ := resetCommand_cases hc
    exact legal_resetFrom (h.programFits p hp)
  | cycle => exact everyStepKeepsLegality s t h hc
  | fetch =>
    obtain ⟨_, rfl⟩ | ⟨hr, rfl⟩ := fetchCommand_cases hc
    · exact h
    · exact legal_fetch h hr
  | execute =>
    obtain ⟨_, rfl⟩ | ⟨hr, hex⟩ := executeCommand_cases hc
    · exact h
    · exact legal_execute h hr hex

/-- Settles O37: the reset state is the reset from the program of 0 words, which fits. -/
theorem resetStateIsLegal : Obligations.ResetStateIsLegal := by
  unfold Obligations.ResetStateIsLegal
  rw [State.reset_eq_resetFrom]
  exact legal_resetFrom (Nat.zero_le _)

end Sys2Proof.Machine
end

section
/-! SUPPORT. The halted flag: HALT alone sets it, and no phase clears it (R21). -/

namespace Sys2Proof.Machine

/-- The execute phase leaves `ir`. -/
theorem execute_ir {s t : State} (h : execute s = .next t) : t.ir = s.ir := by
  obtain ⟨_, _, hexec⟩ | ⟨_, _, rfl⟩ := execute_cases h
  · obtain ⟨_, _, rfl⟩ | ⟨_, _, _, _, rfl⟩ | ⟨_, _, _, rfl⟩ | ⟨_, _, _, rfl⟩ | ⟨_, _, _, rfl⟩ := exec_cases hexec <;> rfl
  · rfl

/-- The execute phase leaves the halted flag unless the opcode in `ir` is 0. -/
theorem execute_halted_of_opcode_ne_zero {s t : State} (h : execute s = .next t) (hop : s.ir.toNat / 4096 ≠ 0) :
    t.halted = s.halted := by
  obtain ⟨i, hi, hexec⟩ | ⟨_, _, rfl⟩ := execute_cases h
  · obtain ⟨_, _, rfl⟩ | ⟨_, _, _, _, rfl⟩ | ⟨_, _, _, rfl⟩ | ⟨_, _, rfl, _⟩ | ⟨_, _, _, rfl⟩ := exec_cases hexec
    · rfl
    · rfl
    · rfl
    · exact absurd (opcode_of_decode_ok hi) hop
    · rfl
  · rfl

/-- An execute phase that turns the halted flag on leaves an opcode 0 in `ir`. -/
theorem execute_sets_halted {s t : State} (h : execute s = .next t) (hs : s.halted = false) (ht : t.halted = true) :
    t.ir.toNat / 4096 = 0 := by
  rw [execute_ir h]
  by_contra hop
  rw [execute_halted_of_opcode_ne_zero h hop, hs] at ht
  cases ht

/-- The fetch phase leaves the halted flag. -/
theorem fetch_halted (s : State) : (fetch s).halted = s.halted := by
  rcases Nat.lt_or_ge s.pc.toNat 64 with hpc | hpc
  · rw [fetch_eq_latch hpc]; rfl
  · rw [fetch_eq_raise hpc]; rfl

/-- A step that turns the halted flag on leaves an opcode 0 in `ir`. -/
theorem step_sets_halted {s t : State} (h : step s = .next t) (hs : s.halted = false) (ht : t.halted = true) :
    t.ir.toNat / 4096 = 0 := by
  obtain ⟨hp, ⟨_, rfl⟩ | ⟨_, _, rfl⟩ | ⟨hr, hpc, _, rfl⟩ | ⟨hr, hpc, _, _, _⟩⟩ := step_cases h
  · simp [hs] at ht
  · simp [hs] at ht
  · simp [hs] at ht
  · rw [step_eq_execute_latch hp hr hpc] at h
    exact execute_sets_halted h hs ht

/-- A command that turns the halted flag on is CYCLE or EXECUTE, and leaves an opcode 0 in `ir`. -/
theorem runCommand_sets_halted {c : Command} {s t : State} (h : runCommand c s = .next t) (hs : s.halted = false)
    (ht : t.halted = true) : (c = .cycle ∨ c = .execute) ∧ t.ir.toNat / 4096 = 0 := by
  cases c with
  | load image => obtain rfl | ⟨_, _, rfl⟩ := loadImage_cases h <;> simp [hs] at ht
  | reset => obtain ⟨_, _, rfl⟩ := resetCommand_cases h; simp at ht
  | cycle => exact ⟨.inl rfl, step_sets_halted h hs ht⟩
  | fetch => obtain ⟨_, rfl⟩ | ⟨_, rfl⟩ := fetchCommand_cases h <;> simp [fetch_halted, hs] at ht
  | execute =>
    obtain ⟨_, rfl⟩ | ⟨_, hex⟩ := executeCommand_cases h
    · simp [hs] at ht
    · exact ⟨.inr rfl, execute_sets_halted hex hs ht⟩

/-- After the end of a run every command but RESET and LOAD changes nothing (R78, R81). -/
theorem runCommand_of_not_running {c : Command} {s t : State} (h : runCommand c s = .next t)
    (hr : s.runState ≠ .running) : (c = .reset ∨ ∃ image, c = .load image) ∨ t = s := by
  cases c with
  | load image => exact .inl (.inr ⟨image, rfl⟩)
  | reset => exact .inl (.inl rfl)
  | cycle =>
    obtain ⟨_, ⟨_, rfl⟩ | ⟨hr', _⟩ | ⟨hr', _⟩ | ⟨hr', _⟩⟩ := step_cases h
    · exact .inr rfl
    all_goals exact absurd hr' hr
  | fetch =>
    obtain ⟨_, rfl⟩ | ⟨hr', _⟩ := fetchCommand_cases h
    · exact .inr rfl
    · exact absurd hr' hr
  | execute =>
    obtain ⟨_, rfl⟩ | ⟨hr', _⟩ := executeCommand_cases h
    · exact .inr rfl
    · exact absurd hr' hr

/-- A command that turns the halted flag off is RESET or LOAD: from Halted the phases do nothing. -/
theorem runCommand_clears_halted {c : Command} {s t : State} (h : runCommand c s = .next t) (hs : s.halted = true)
    (ht : t.halted = false) : c = .reset ∨ ∃ image, c = .load image := by
  have hr : s.runState ≠ .running := by simp [State.runState_running_iff, hs]
  obtain hc | rfl := runCommand_of_not_running h hr
  · exact hc
  · simp [hs] at ht

/-- Settles O30: the flag is set only by an execute phase, and only RESET and LOAD leave Halted. -/
theorem onlyHaltSetsAndOnlyResetClearsHalted : Obligations.OnlyHaltSetsAndOnlyResetClearsHalted :=
  fun _ _ _ h => ⟨runCommand_sets_halted h, runCommand_clears_halted h⟩

end Sys2Proof.Machine
end

section
/-! SUPPORT. Ignored bits (R12, R55): a register selection depends on the low 2 bits of its field alone. -/

namespace Sys2Proof.Machine

/-- A register is known by its index. -/
theorem regIndex_injective : Function.Injective regIndex := by
  have hinv : Function.LeftInverse (fun n => regOfIndex (BitVec.ofNat 2 n)) regIndex := by
    intro r; cases r <;> rfl
  exact hinv.injective

theorem regSel_congr {r r' : RegField} (h : r.toNat % 4 = r'.toNat % 4) : regSel r = regSel r' :=
  regIndex_injective (by rw [regIndex_regSel, regIndex_regSel, h])

theorem operandSel_congr {o o' : OperandField} (h : o.toNat % 4 = o'.toNat % 4) : operandSel o = operandSel o' :=
  regIndex_injective (by rw [regIndex_operandSel, regIndex_operandSel, h])

/-- Settles O6: each meaning reads its fields only through the selectors, the data address and the zero extension. -/
theorem ignoredBitsDoNothing : Obligations.IgnoredBitsDoNothing := by
  refine ⟨?halt, ?lval, ?load, ?store, ?add, ?sub, ?jmp, ?mov⟩
  case halt => intros; rfl
  case lval =>
    intro r r' n s hr
    rw [exec_lval, exec_lval, execLval_next, execLval_next, regSel_congr hr]
  case load =>
    intro r r' a s hr
    rw [exec_load, exec_load, execLoad, execLoad, regSel_congr hr]
  case store =>
    intro r r' a s hr
    rw [exec_store, exec_store, execStore, execStore, regSel_congr hr]
  case add =>
    intro r r' o o' s hr ho
    rw [exec_add, exec_add, execAdd_next, execAdd_next, regSel_congr hr, operandSel_congr ho]
  case sub =>
    intro r r' o o' s hr ho
    rw [exec_sub, exec_sub, execSub_next, execSub_next, regSel_congr hr, operandSel_congr ho]
  case jmp => intros; rfl
  case mov =>
    intro r r' o o' s hr ho
    rw [exec_mov, exec_mov, execMov_next, execMov_next, regSel_congr hr, operandSel_congr ho]

end Sys2Proof.Machine
end

section
/-! SUPPORT. Memory writes: a word changes only where the STORE run by CYCLE or EXECUTE addresses it, and by reset (R39). -/

namespace Sys2Proof.Machine

/-! ### The word of a STORE -/

/-- The word of a STORE as a number: opcode 3, the register selected by the low 2 bits of its field, and the address
(R52, R89). -/
theorem decode_store {w : Word} {reg : RegField} {addr8 : OperandField} (h : decode w = .ok (.store reg addr8)) :
    w.toNat / 4096 = 3 ∧ regIndex (regSel reg) = w.toNat / 256 % 4 ∧ addr8.toNat = w.toNat % 256 := by
  obtain ⟨_, hreg, haddr⟩ := (decode_eq_ok w _).mp h
  simp only [regFieldOf, operandFieldOf] at hreg haddr
  refine ⟨opcode_of_decode_ok h, ?_, ?_⟩
  · rw [regIndex_regSel, ← hreg, decodeFields_reg_toNat]; omega
  · rw [← haddr, decodeFields_operand_toNat]

theorem storeAddress_eq_some (w : Word) (a : Nat) :
    storeAddress w = some a ↔ w.toNat / 4096 = 3 ∧ a = w.toNat % 256 ∧ a < 64 := by
  unfold storeAddress
  split <;> simp only [Option.some.injEq, reduceCtorEq, false_iff] <;> omega

theorem storedAddress_cycle {s : State} (hr : s.runState = .running) (hpc : s.pc.toNat < 64) :
    s.storedAddress .cycle = storeAddress (s.mem.wordAt s.pc.toNat) := by
  simp [State.storedAddress, hr, hpc]

theorem storedAddress_execute {s : State} (hr : s.runState = .running) :
    s.storedAddress .execute = storeAddress s.ir := by
  simp [State.storedAddress, hr]

/-! ### The phases -/

/-- The fetch phase writes no memory word (R74). -/
theorem fetch_mem (s : State) : (fetch s).mem = s.mem := by
  rcases Nat.lt_or_ge s.pc.toNat 64 with hpc | hpc
  · rw [fetch_eq_latch hpc, State.latch_mem]
  · rw [fetch_eq_raise hpc, State.raise_mem]

/-- The execute phase leaves memory, or the word in `ir` is a STORE below address 64, which writes its register there. -/
theorem execute_mem_cases {s t : State} (h : execute s = .next t) :
    t.mem = s.mem ∨ ∃ reg addr8, decode s.ir = .ok (.store reg addr8) ∧ addr8.toNat < 64 ∧
      t.mem = s.mem.setWord addr8.toNat (s.readReg (regSel reg)) := by
  obtain ⟨i, hi, hexec⟩ | ⟨_, _, rfl⟩ := execute_cases h
  · obtain ⟨_, _, rfl⟩ | ⟨reg, addr8, rfl, ha, rfl⟩ | ⟨_, _, _, rfl⟩ | ⟨_, _, _, rfl⟩ | ⟨_, _, _, rfl⟩ := exec_cases hexec
    · exact .inl rfl
    · exact .inr ⟨reg, addr8, hi, ha, rfl⟩
    · exact .inl rfl
    · exact .inl rfl
    · exact .inl rfl
  · exact .inl rfl

/-- A word that the execute phase changes is where the word in `ir` stores to, and becomes the STORE's register. -/
theorem execute_changes_word {s t : State} {a : Nat} (h : execute s = .next t)
    (hne : t.mem.wordAt a ≠ s.mem.wordAt a) :
    storeAddress s.ir = some a ∧ t.mem.wordAt a = s.x (s.ir.toNat / 256 % 4) := by
  obtain hmem | ⟨reg, addr8, hdec, haddr, hmem⟩ := execute_mem_cases h
  · rw [hmem] at hne; exact absurd rfl hne
  · obtain ⟨hop, hsel, heq⟩ := decode_store hdec
    rw [hmem, Memory.wordAt_setWord] at hne ⊢
    obtain rfl : a = addr8.toNat := by
      by_contra hna
      rw [if_neg hna] at hne; exact hne rfl
    exact ⟨(storeAddress_eq_some _ _).mpr ⟨hop, heq, haddr⟩, by rw [if_pos rfl, State.readReg_eq_x, hsel]⟩

/-! ### The commands -/

/-- A word that CYCLE changes is where the fetched word, left in `ir`, stores to. -/
theorem step_changes_word {s t : State} {a : Nat} (h : step s = .next t) (hne : t.mem.wordAt a ≠ s.mem.wordAt a) :
    s.storedAddress .cycle = some a ∧ storeAddress t.ir = some a ∧ t.mem.wordAt a = s.x (t.ir.toNat / 256 % 4) := by
  obtain ⟨hp, ⟨_, rfl⟩ | ⟨_, _, rfl⟩ | ⟨_, _, _, rfl⟩ | ⟨hr, hpc, _, _, _⟩⟩ := step_cases h
  · exact absurd rfl hne
  · exact absurd rfl hne
  · exact absurd rfl hne
  · rw [step_eq_execute_latch hp hr hpc] at h
    obtain ⟨haddr, hword⟩ := execute_changes_word h hne
    rw [execute_ir h, storedAddress_cycle hr hpc]
    exact ⟨haddr, haddr, hword⟩

/-- A word that a command other than RESET and LOAD changes is the one that the command stores to, by a STORE in `ir`. -/
theorem runCommand_changes_word {c : Command} {s t : State} {a : Nat} (h : runCommand c s = .next t)
    (hne : t.mem.wordAt a ≠ s.mem.wordAt a) :
    (c = .reset ∨ ∃ image, c = .load image) ∨
      ((c = .cycle ∨ c = .execute) ∧ s.storedAddress c = some a ∧ storeAddress t.ir = some a ∧
        t.mem.wordAt a = s.x (t.ir.toNat / 256 % 4)) := by
  cases c with
  | load image => exact .inl (.inr ⟨image, rfl⟩)
  | reset => exact .inl (.inl rfl)
  | cycle => exact .inr ⟨.inl rfl, step_changes_word h hne⟩
  | fetch =>
    have hmem : t.mem = s.mem := by
      obtain ⟨_, rfl⟩ | ⟨_, rfl⟩ := fetchCommand_cases h
      · rfl
      · exact fetch_mem s
    rw [hmem] at hne; exact absurd rfl hne
  | execute =>
    obtain ⟨_, rfl⟩ | ⟨hr, hex⟩ := executeCommand_cases h
    · exact absurd rfl hne
    · obtain ⟨haddr, hword⟩ := execute_changes_word hex hne
      rw [execute_ir hex, storedAddress_execute hr]
      exact .inr ⟨.inr rfl, haddr, haddr, hword⟩

/-- Settles O32: a changed word is where the STORE left in `ir` stores to. -/
theorem onlyStoreAndResetWriteMemory : Obligations.OnlyStoreAndResetWriteMemory := by
  intro c s t a h hne
  obtain hc | ⟨hc, _, haddr, hword⟩ := runCommand_changes_word h hne
  · exact .inl hc
  · obtain ⟨hop, heq, hlt⟩ := (storeAddress_eq_some _ _).mp haddr
    exact .inr ⟨hc, hop, heq, hlt, hword⟩

end Sys2Proof.Machine
end

section
/-! SUPPORT. Memory reads: with another memory that agrees where the cycle reads, each phase goes the same way and keeps
agreement (R31, R83). -/

namespace Sys2Proof.Machine

/-- Words that agree in `m` and `n` agree in `m'` and `n'`. -/
def Memory.KeepsAgreement (m n m' n' : Memory) : Prop :=
  ∀ a, n.wordAt a = m.wordAt a → n'.wordAt a = m'.wordAt a

theorem Memory.keepsAgreement_refl (m n : Memory) : Memory.KeepsAgreement m n m n := fun _ h => h

theorem Memory.keepsAgreement_setWord (m n : Memory) (a : Nat) (v : Word) :
    Memory.KeepsAgreement m n (m.setWord a v) (n.setWord a v) := by
  intro b h
  rw [Memory.wordAt_setWord, Memory.wordAt_setWord, h]

/-- A latch does not touch memory, so it commutes with writing all of it. -/
theorem State.latch_setMem (s : State) (m : Memory) (w : Word) : (s.setMem m).latch w = (s.latch w).setMem m := rfl

/-! ### The execute phase -/

/-- A meaning reads memory only at a LOAD's operand (R83). -/
theorem exec_setMem {i : Instr} {s t : State} {m : Memory} (h : exec i s = .next t)
    (hload : ∀ reg addr8, i = .load reg addr8 → m.wordAt addr8.toNat = s.mem.wordAt addr8.toNat) :
    ∃ m', exec i (s.setMem m) = .next (t.setMem m') ∧ Memory.KeepsAgreement s.mem m t.mem m' := by
  cases i with
  | load reg addr8 =>
    rw [exec_load] at h ⊢
    rcases Nat.lt_or_ge addr8.toNat 64 with ha | ha
    · rw [execLoad_next _ _ _ ha] at h ⊢
      cases h
      rw [State.setMem_mem, hload _ _ rfl]
      exact ⟨m, rfl, Memory.keepsAgreement_refl _ _⟩
    · rw [execLoad_raise _ _ _ ha] at h ⊢
      cases h; exact ⟨m, rfl, Memory.keepsAgreement_refl _ _⟩
  | store reg addr8 =>
    rw [exec_store] at h ⊢
    rcases Nat.lt_or_ge addr8.toNat 64 with ha | ha
    · rw [execStore_next _ _ _ ha] at h ⊢
      cases h; exact ⟨_, rfl, Memory.keepsAgreement_setWord _ _ _ _⟩
    · rw [execStore_raise _ _ _ ha] at h ⊢
      cases h; exact ⟨m, rfl, Memory.keepsAgreement_refl _ _⟩
  | halt | lval | add | sub | jmp | mov => cases h; exact ⟨m, rfl, Memory.keepsAgreement_refl _ _⟩

/-- The execute phase reads memory only at the operand of a LOAD in `ir` (R83). -/
theorem execute_setMem {s t : State} {m : Memory} (h : execute s = .next t)
    (hload : ∀ reg addr8, decode s.ir = .ok (.load reg addr8) → m.wordAt addr8.toNat = s.mem.wordAt addr8.toNat) :
    ∃ m', execute (s.setMem m) = .next (t.setMem m') ∧ Memory.KeepsAgreement s.mem m t.mem m' := by
  obtain ⟨i, hi, hexec⟩ | ⟨r, hr, rfl⟩ := execute_cases h
  · rw [execute_eq_exec (s := s.setMem m) hi]
    exact exec_setMem hexec fun reg addr8 hi' => hload reg addr8 (hi' ▸ hi)
  · rw [execute_eq_raise (s := s.setMem m) hr]
    exact ⟨m, rfl, Memory.keepsAgreement_refl _ _⟩

/-! ### The step -/

/-- With a program recorded a step is the cycle (R117). -/
theorem step_eq_cycle {s : State} (hp : s.program ≠ none) : step s = cycle s := by
  obtain ⟨p, hp⟩ := Option.ne_none_iff_exists'.mp hp
  simp [step, cycleCommand, hp]

/-- A step reads memory only at the addresses of `cycleReads` (R31, R83). -/
theorem step_setMem {s t : State} {m : Memory} (h : step s = .next t)
    (hreads : ∀ a, s.cycleReads a → m.wordAt a = s.mem.wordAt a) :
    ∃ m', step (s.setMem m) = .next (t.setMem m') ∧ Memory.KeepsAgreement s.mem m t.mem m' := by
  obtain ⟨hp, hcases⟩ := step_cases h
  have hp' : (s.setMem m).program ≠ none := hp
  have hrun : (s.setMem m).runState = s.runState := State.runState_congr rfl rfl
  by_cases hr : s.runState = .running
  · have hr' := hrun.trans hr
    rcases Nat.lt_or_ge s.pc.toNat 64 with hpc | hpc
    · have hword : m.wordAt s.pc.toNat = s.mem.wordAt s.pc.toNat := hreads _ (.inl rfl)
      rw [step_eq_execute_latch hp hr hpc] at h
      rw [step_eq_execute_latch hp' hr' hpc, State.setMem_mem, State.setMem_pc, hword, State.latch_setMem]
      exact execute_setMem h fun reg addr8 hi => hreads _ (.inr ⟨reg, addr8, hi, rfl⟩)
    · rw [step_eq_cycle hp, cycle_of_fetch_raise hr hpc] at h
      rw [step_eq_cycle hp', cycle_of_fetch_raise hr' hpc]
      cases h; exact ⟨m, rfl, Memory.keepsAgreement_refl _ _⟩
  · rw [step_eq_cycle hp, cycle_of_not_running hr] at h
    rw [step_eq_cycle hp', cycle_of_not_running (hrun ▸ hr)]
    cases h; exact ⟨m, rfl, Memory.keepsAgreement_refl _ _⟩

/-- Settles O33: the step with the other memory is the same step with a memory that keeps agreement. -/
theorem cycleReadsOnlyItsAddresses : Obligations.CycleReadsOnlyItsAddresses := by
  intro s t m hreads h
  obtain ⟨m', hstep, hagree⟩ := step_setMem h hreads
  exact ⟨t.setMem m', hstep, rfl, hagree⟩

end Sys2Proof.Machine
end

section
/-! SUPPORT. A stored word stays in memory through every list of phase commands that does not store there again, and a later
fetch latches it (R43). -/

namespace Sys2Proof.Machine

/-! ### The phases always answer -/

/-- Every meaning answers a next state (R77, R100). -/
theorem exec_next (i : Instr) (s : State) : ∃ t, exec i s = .next t := by
  cases i with
  | load reg addr8 =>
    rcases Nat.lt_or_ge addr8.toNat 64 with ha | ha
    · exact ⟨_, execLoad_next reg addr8 s ha⟩
    · exact ⟨_, execLoad_raise reg addr8 s ha⟩
  | store reg addr8 =>
    rcases Nat.lt_or_ge addr8.toNat 64 with ha | ha
    · exact ⟨_, execStore_next reg addr8 s ha⟩
    · exact ⟨_, execStore_raise reg addr8 s ha⟩
  | halt | lval | add | sub | jmp | mov => exact ⟨_, rfl⟩

theorem execute_next (s : State) : ∃ t, execute s = .next t := by
  rcases decode_cases s.ir with ⟨i, hi⟩ | ⟨r, hr⟩
  · rw [execute_eq_exec hi]; exact exec_next i s
  · exact ⟨_, execute_eq_raise hr⟩

/-- The execute phase leaves the recorded program. -/
theorem execute_program {s t : State} (h : execute s = .next t) : t.program = s.program := by
  obtain ⟨_, _, hexec⟩ | ⟨_, _, rfl⟩ := execute_cases h
  · obtain ⟨_, _, rfl⟩ | ⟨_, _, _, _, rfl⟩ | ⟨_, _, _, rfl⟩ | ⟨_, _, _, rfl⟩ | ⟨_, _, _, rfl⟩ := exec_cases hexec <;> rfl
  · rfl

/-- The fetch phase leaves the recorded program. -/
theorem fetch_program (s : State) : (fetch s).program = s.program := by
  rcases Nat.lt_or_ge s.pc.toNat 64 with hpc | hpc
  · rw [fetch_eq_latch hpc, State.latch_program]
  · rw [fetch_eq_raise hpc, State.raise_program]

/-- A cycle always answers a next state and leaves the recorded program (R78, R100). -/
theorem cycle_next (s : State) : ∃ t, cycle s = .next t ∧ t.program = s.program := by
  by_cases hr : s.runState = .running
  · rcases Nat.lt_or_ge s.pc.toNat 64 with hpc | hpc
    · obtain ⟨t, ht⟩ := execute_next (s.latch (s.mem.wordAt s.pc.toNat))
      exact ⟨t, (cycle_of_fetch_latch hr hpc).trans ht, (execute_program ht).trans (State.latch_program s _)⟩
    · exact ⟨_, cycle_of_fetch_raise hr hpc, rfl⟩
  · exact ⟨s, cycle_of_not_running hr, rfl⟩

/-- With a program recorded FETCH is the fetch phase, or nothing after the end of a run (R80, R81). -/
theorem fetchCommand_eq {s : State} (hp : s.program ≠ none) :
    runCommand .fetch s = .next (if s.runState = .running then fetch s else s) := by
  obtain ⟨p, hp⟩ := Option.ne_none_iff_exists'.mp hp
  cases hr : s.runState <;> simp [runCommand, fetchCommand, hp, fetchPhase, hr]

/-- With a program recorded EXECUTE is the execute phase, or nothing after the end of a run (R80, R81). -/
theorem executeCommand_eq {s : State} (hp : s.program ≠ none) :
    runCommand .execute s = if s.runState = .running then execute s else .next s := by
  obtain ⟨p, hp⟩ := Option.ne_none_iff_exists'.mp hp
  cases hr : s.runState <;> simp [runCommand, executeCommand, hp, executePhase, hr]

/-- With a program recorded CYCLE, FETCH and EXECUTE answer a next state, and the program stays recorded. -/
theorem runCommand_phase_next {c : Command} {s : State} (hc : c = .cycle ∨ c = .fetch ∨ c = .execute)
    (hp : s.program ≠ none) : ∃ t, runCommand c s = .next t ∧ t.program = s.program := by
  obtain rfl | rfl | rfl := hc
  · obtain ⟨t, ht, hprog⟩ := cycle_next s
    exact ⟨t, (step_eq_cycle hp).trans ht, hprog⟩
  · refine ⟨_, fetchCommand_eq hp, ?_⟩
    split
    · exact fetch_program s
    · rfl
  · rw [executeCommand_eq hp]
    split
    · obtain ⟨t, ht⟩ := execute_next s
      exact ⟨t, ht, execute_program ht⟩
    · exact ⟨s, rfl, rfl⟩

/-! ### The stored word stays -/

/-- A phase command leaves every word but the one it stores to. -/
theorem runCommand_phase_keeps_word {c : Command} {s t : State} {a : Nat} (hc : c = .cycle ∨ c = .fetch ∨ c = .execute)
    (h : runCommand c s = .next t) (hst : s.storedAddress c ≠ some a) : t.mem.wordAt a = s.mem.wordAt a := by
  by_contra hne
  obtain hreset | ⟨_, haddr, _⟩ := runCommand_changes_word h hne
  · obtain rfl | rfl | rfl := hc <;> simp at hreset
  · exact hst haddr

/-- A list that never stores to `a` does not by its first command, nor by the rest from where the first one leads. -/
theorem State.NeverStoresTo.cons {s : State} {a : Nat} {c : Command} {cs : List Command}
    (h : s.NeverStoresTo a (c :: cs)) :
    s.storedAddress c ≠ some a ∧ ∀ t, runCommand c s = .next t → t.NeverStoresTo a cs := by
  refine ⟨h [] cs c s rfl rfl, fun t ht before after d v hcs hv => ?_⟩
  exact h (c :: before) after d v (by rw [hcs]; rfl) ((runCommands_cons c before s t ht).trans hv)

/-- A list of phase commands that never stores to `a` answers a next state and leaves the word at `a`. -/
theorem runCommands_keeps_word {a : Nat} {cs : List Command} {s : State} (hp : s.program ≠ none)
    (hcs : ∀ c ∈ cs, c = .cycle ∨ c = .fetch ∨ c = .execute) (hst : s.NeverStoresTo a cs) :
    ∃ u, runCommands cs s = .next u ∧ u.program ≠ none ∧ u.mem.wordAt a = s.mem.wordAt a := by
  induction cs generalizing s with
  | nil => exact ⟨s, rfl, hp, rfl⟩
  | cons c cs ih =>
    obtain ⟨hc, hcs⟩ := List.forall_mem_cons.mp hcs
    obtain ⟨hfirst, hrest⟩ := hst.cons
    obtain ⟨t, ht, hprog⟩ := runCommand_phase_next hc hp
    obtain ⟨u, hu, hpu, hword⟩ := ih (hprog ▸ hp) hcs (hrest t ht)
    exact ⟨u, (runCommands_cons c cs s t ht).trans hu, hpu,
      hword.trans (runCommand_phase_keeps_word hc ht hfirst)⟩

/-! ### A later fetch latches it -/

/-- A fetch below address 64 leaves the word at `pc` in `ir` (R74). -/
theorem fetch_ir {s : State} (hpc : s.pc.toNat < 64) : (fetch s).ir = s.mem.wordAt s.pc.toNat := by
  rw [fetch_eq_latch hpc, State.latch_ir]

/-- From a block that can cycle, FETCH and CYCLE leave the word at `pc` in `ir`. -/
theorem runCommand_latches {c : Command} {s : State} (hs : s.CanCycle) (hpc : s.pc.toNat < 64)
    (hc : c = .fetch ∨ c = .cycle) : ∃ t, runCommand c s = .next t ∧ t.ir = s.mem.wordAt s.pc.toNat := by
  obtain ⟨hr, hp⟩ := hs
  obtain rfl | rfl := hc
  · refine ⟨_, fetchCommand_eq hp, ?_⟩
    rw [if_pos hr, fetch_ir hpc]
  · obtain ⟨t, ht⟩ := execute_next (s.latch (s.mem.wordAt s.pc.toNat))
    exact ⟨t, (step_eq_execute_latch hp hr hpc).trans ht, execute_ir ht⟩

/-- A cycle that runs a STORE below address 64 leaves the STORE's word in `ir`, the block able to cycle again, and the
register in memory (R74, R89). -/
theorem step_store {s : State} {reg : RegField} {addr8 : OperandField} (hs : s.CanCycle) (hpc : s.pc.toNat < 64)
    (ha : addr8.toNat < 64) (hi : decode (s.mem.wordAt s.pc.toNat) = .ok (.store reg addr8)) :
    ∃ t, step s = .next t ∧ t.ir = s.mem.wordAt s.pc.toNat ∧ t.CanCycle ∧
      t.mem.wordAt (dataAddress addr8) = s.x (reg.toNat % 4) := by
  obtain ⟨hr, hp⟩ := hs
  refine ⟨(s.latch (s.mem.wordAt s.pc.toNat)).setMem (s.mem.setWord addr8.toNat (s.x (reg.toNat % 4))),
    ?step, rfl, ⟨(State.runState_congr rfl rfl).trans hr, hp⟩, ?word⟩
  case step =>
    rw [step_eq_execute_latch hp hr hpc, execute_eq_exec (s := s.latch _) hi, exec_store, execStore_next _ _ _ ha,
      State.readReg_eq_x, regIndex_regSel, State.x_congr (State.latch_regs s _), State.latch_mem]
  case word => rw [State.setMem_mem, Memory.wordAt_setWord, dataAddress, if_pos rfl]

/-- Settles O34: the STORE puts the word in memory, the phases keep it there, and a fetch at its address latches it. -/
theorem storeIsSeenByEveryLaterFetch : Obligations.StoreIsSeenByEveryLaterFetch := by
  intro s reg addr8 hs hpc ha hi
  obtain ⟨t, ht, hir, hcan, hstored⟩ := step_store hs hpc ha hi
  refine ⟨t, ht, hir, hcan, hstored, fun v hmem hv => ?fetched, fun cs hcs hst => ?later⟩
  case fetched => rw [fetch_ir (hv ▸ ha), hmem, hv, hstored]
  case later =>
    obtain ⟨u, hu, hp, hkept⟩ := runCommands_keeps_word hcan.2 hcs hst
    refine ⟨u, hu, hkept.trans hstored, fun hr hupc c hc => ?_⟩
    obtain ⟨w, hw, hwir⟩ := runCommand_latches ⟨hr, hp⟩ (hupc ▸ ha) hc
    exact ⟨w, hw, by rw [hwir, hupc, hkept, hstored]⟩

end Sys2Proof.Machine
end

section
/-! SUPPORT. The codec (R46 to R57): packing fields and splitting a word are inverse to each other, on every word that is an
instruction. -/

namespace Sys2Proof

/-- The fields of a packed word are the fields packed (R57). -/
theorem decodeFields_encodeFields (f : Fields) : decodeFields (encodeFields f) = f := by
  have hr := f.reg.isLt
  have hp := f.operand.isLt
  have hopcode : (decodeFields (encodeFields f)).opcode = f.opcode :=
    BitVec.eq_of_toNat_eq (by rw [decodeFields_opcode_toNat, encodeFields_toNat]; omega)
  have hreg : (decodeFields (encodeFields f)).reg = f.reg :=
    BitVec.eq_of_toNat_eq (by rw [decodeFields_reg_toNat, encodeFields_toNat]; omega)
  have hoperand : (decodeFields (encodeFields f)).operand = f.operand :=
    BitVec.eq_of_toNat_eq (by rw [decodeFields_operand_toNat, encodeFields_toNat]; omega)
  calc decodeFields (encodeFields f)
      = ⟨(decodeFields (encodeFields f)).opcode, (decodeFields (encodeFields f)).reg,
          (decodeFields (encodeFields f)).operand⟩ := rfl
    _ = f := by rw [hopcode, hreg, hoperand]

/-- The decoder reads exactly the words of instructions, each as its instruction (R48, R52). -/
theorem decode_eq_ok_iff_encode (w : Word) (i : Instr) : decode w = .ok i ↔ encode i = w := by
  rw [decode_eq_ok]
  constructor
  · rintro ⟨hopcode, hreg, hoperand⟩
    rw [encode, ← hopcode, ← hreg, ← hoperand]
    exact encodeFields_decodeFields w
  · rintro rfl
    rw [encode, decodeFields_encodeFields]
    exact ⟨rfl, rfl, rfl⟩

/-- Settles O2: the word of an instruction is one of the words that decode to it. -/
theorem decodeOfEncodeIsTheInstruction : Obligations.DecodeOfEncodeIsTheInstruction :=
  fun i => (decode_eq_ok_iff_encode _ i).mpr rfl

/-- Settles O3: a word that decodes is the word of what it decodes to. -/
theorem encodeOfDecodeIsTheWord : Obligations.EncodeOfDecodeIsTheWord :=
  fun w i => (decode_eq_ok_iff_encode w i).mp

/-- Settles O1: within their widths the numbers pass through the fields, and the masks keep them. -/
theorem fieldsOfThePackedWord : Obligations.FieldsOfThePackedWord := by
  intro op reg operand hop hreg hoperand
  rw [decodeFields_encodeFields]
  simp only [BitVec.toNat_ofNat]
  exact ⟨Nat.mod_eq_of_lt hop, (Nat.and_two_pow_sub_one_eq_mod reg 4).symm,
    (Nat.and_two_pow_sub_one_eq_mod operand 8).symm⟩

end Sys2Proof

namespace Sys2Proof.Machine

/-- A fault entered leaves every element but `fault` (R100). -/
theorem unchangedBut_raise (s : State) (c : FaultStatus) : s.UnchangedBut (s.raise c) [.fault] where
  reg _ _ _ := rfl
  pc _ := rfl
  ir _ := rfl
  word _ _ := rfl
  halted _ := rfl
  fault h := absurd List.mem_cons_self h
  program _ := rfl

/-- Some refusal is answered exactly for the words whose opcode field is 8 to 15 (R54). -/
theorem decode_refuses_iff (w : Word) : (∃ r, decode w = .error r) ↔ 8 ≤ w.toNat / 4096 := by
  constructor
  · rintro ⟨r, hr⟩
    exact ((decode_eq_error w r).mp hr).1
  · intro h
    exact ⟨_, (decode_eq_error w _).mpr ⟨h, rfl⟩⟩

/-- Settles O4: the decoder refuses by the opcode field alone, and the execute phase answers a refusal by raising. -/
theorem invalidInstructionsAreTheUpperHalf : Obligations.InvalidInstructionsAreTheUpperHalf := by
  refine ⟨decode_refuses_iff, fun w => ?noInstruction, fun s h => ?executed⟩
  case noInstruction =>
    cases decode w <;> simp
  case executed =>
    obtain ⟨r, hr⟩ := (decode_refuses_iff s.ir).mpr h
    exact ⟨_, execute_eq_raise hr, rfl, unchangedBut_raise s _⟩

/-- Settles O5: each valid word is the word of its instruction, and the last has the opcode field 8. -/
theorem knownWordsDecode : Obligations.KnownWordsDecode := by
  simp only [Obligations.KnownWordsDecode, decode_eq_ok_iff_encode, decode_eq_error]
  decide

end Sys2Proof.Machine
end

section
/-! SUPPORT. The canonical form (R52, R55): the mask of a register selector keeps its low 2 bits and clears the others. -/

namespace Sys2Proof

/-- The mask 3 is the remainder modulo 4, at every width that can hold it. -/
theorem toNat_and_three {n : Nat} (hn : 2 ≤ n) (x : BitVec n) : (x &&& 3).toNat = x.toNat % 4 := by
  have hpow : 2 ^ 2 ≤ 2 ^ n := Nat.pow_le_pow_right (by decide) hn
  have hthree : (3 : BitVec n).toNat = 2 ^ 2 - 1 := Nat.mod_eq_of_lt (Nat.lt_of_lt_of_le (by decide) hpow)
  rw [BitVec.toNat_and, hthree, Nat.and_two_pow_sub_one_eq_mod]

theorem and_three_eq_self_iff {n : Nat} (hn : 2 ≤ n) (x : BitVec n) : x &&& 3 = x ↔ x.toNat < 4 := by
  rw [← BitVec.toNat_inj, toNat_and_three hn]
  omega

/-- A reg field is in canonical form exactly when masking leaves it (R55). -/
theorem canonicalReg_iff (reg : RegField) : canonicalReg reg = true ↔ reg &&& 3 = reg := by
  rw [canonicalReg, decide_eq_true_iff, and_three_eq_self_iff (by decide)]

/-- An operand field that selects a register is in canonical form exactly when masking leaves it (R55). -/
theorem canonicalOperandReg_iff (operand : OperandField) :
    canonicalOperandReg operand = true ↔ operand &&& 3 = operand := by
  rw [canonicalOperandReg, decide_eq_true_iff, and_three_eq_self_iff (by decide)]

/-- The well-formed instructions are those that are their own canonical form (R52). -/
theorem wellFormed_iff (i : Instr) : WellFormed i = true ↔ canonical i = i := by
  cases i with
  | halt reg operand => simp [WellFormed, canonical, @eq_comm _ reg, @eq_comm _ operand]
  | jmp reg target => simp [WellFormed, canonical, @eq_comm _ reg]
  | _ => simp [WellFormed, canonical, canonicalReg_iff, canonicalOperandReg_iff]

/-- Bits set to 0 stay 0. -/
theorem canonical_canonical (i : Instr) : canonical (canonical i) = canonical i := by
  cases i <;> simp only [canonical, BitVec.and_assoc, BitVec.and_self]

end Sys2Proof

namespace Sys2Proof.Machine

/-- The canonical form differs from the instruction in ignored bits only, so it has the same meaning (R55). -/
theorem exec_canonical (i : Instr) (s : State) : exec (canonical i) s = exec i s := by
  obtain ⟨hhalt, hlval, hload, hstore, hadd, hsub, hjmp, hmov⟩ := ignoredBitsDoNothing
  have hreg (reg : RegField) : (reg &&& 3).toNat % 4 = reg.toNat % 4 := by
    rw [toNat_and_three (by decide), Nat.mod_mod]
  have hoperand (operand : OperandField) : (operand &&& 3).toNat % 4 = operand.toNat % 4 := by
    rw [toNat_and_three (by decide), Nat.mod_mod]
  cases i with
  | halt reg operand => exact hhalt _ _ _ _ _
  | lval reg imm8 => exact hlval _ _ _ _ (hreg reg)
  | load reg addr8 => exact hload _ _ _ _ (hreg reg)
  | store reg addr8 => exact hstore _ _ _ _ (hreg reg)
  | add reg operand => exact hadd _ _ _ _ _ (hreg reg) (hoperand operand)
  | sub reg operand => exact hsub _ _ _ _ _ (hreg reg) (hoperand operand)
  | jmp reg target => exact hjmp _ _ _ _
  | mov reg operand => exact hmov _ _ _ _ _ (hreg reg) (hoperand operand)

/-- Settles O7: a canonical form is its own canonical form, so it is well-formed. -/
theorem canonicalFormIsWellFormedAndEquivalent : Obligations.CanonicalFormIsWellFormedAndEquivalent :=
  fun i => ⟨(wellFormed_iff _).mpr (canonical_canonical i), wellFormed_iff i, exec_canonical i⟩

end Sys2Proof.Machine
end

section
/-! SUPPORT. The arguments of an assembly line (R61, R63 to R65): what each kind of token answers, and in what range. -/

namespace Sys2Proof.Machine

/-! ### Register tokens (R63) -/

/-- The four register texts are the registers 0 to 3. -/
theorem registerIndex_registerText {d : Nat} (hd : d < 4) : registerIndex (registerText d) = .ok d := by
  interval_cases d <;> rfl

/-- A token that is a register is one of the four texts, and its index is below 4. -/
theorem registerIndex_eq_ok {token : List Char} {d : Nat} (h : registerIndex token = .ok d) :
    d < 4 ∧ token = registerText d := by
  unfold registerIndex at h
  split at h
  next ht => cases h; exact ⟨by decide, ht⟩
  split at h
  next ht => cases h; exact ⟨by decide, ht⟩
  split at h
  next ht => cases h; exact ⟨by decide, ht⟩
  split at h
  next ht => cases h; exact ⟨by decide, ht⟩
  cases h

/-- A token that is no register is the error naming it. -/
theorem registerIndex_eq_error {token : List Char} {r : AsmReason} (h : registerIndex token = .error r) :
    r = .badRegister token := by
  unfold registerIndex at h
  repeat' split at h
  all_goals cases h
  rfl

/-- Settles O46: the tokens answered with an index are the four texts, each with its own. -/
theorem registerTokensAreExactlyFour : Obligations.RegisterTokensAreExactlyFour := by
  refine fun token => ⟨?text, ?other⟩
  case text =>
    rintro n hn rfl
    exact registerIndex_registerText hn
  case other =>
    intro hother
    cases h : registerIndex token with
    | ok d =>
      obtain ⟨hd, htoken⟩ := registerIndex_eq_ok h
      exact absurd htoken (hother d hd)
    | error r => rw [registerIndex_eq_error h]

/-! ### Numbers (R64) and addresses (R65) -/

/-- Every character is a decimal digit (R61). -/
def AllDigits (text : List Char) : Prop := ∀ c ∈ text, 48 ≤ c.toNat ∧ c.toNat ≤ 57

theorem allDigits_cons {c : Char} {cs : List Char} :
    AllDigits (c :: cs) ↔ (48 ≤ c.toNat ∧ c.toNat ≤ 57) ∧ AllDigits cs := List.forall_mem_cons

/-- Digits are read as the library reads them, most significant first. -/
theorem digitsFrom_of_allDigits {text : List Char} (h : AllDigits text) (acc : Nat) :
    digitsFrom acc text = some (Nat.ofDigitChars 10 text acc) := by
  induction text generalizing acc with
  | nil => rfl
  | cons c cs ih =>
    obtain ⟨hc, hcs⟩ := allDigits_cons.mp h
    rw [digitsFrom, digitValue, if_pos hc, Nat.ofDigitChars_cons]
    exact ih hcs _

/-- One character that is no digit spoils the number. -/
theorem digitsFrom_of_not_allDigits {text : List Char} (h : ¬ AllDigits text) (acc : Nat) :
    digitsFrom acc text = none := by
  induction text generalizing acc with
  | nil => exact absurd (by simp [AllDigits]) h
  | cons c cs ih =>
    rw [digitsFrom, digitValue]
    split
    next d hd =>
      refine ih (fun hcs => h (allDigits_cons.mpr ⟨?_, hcs⟩)) _
      by_contra hc
      simp [hc] at hd
    next => rfl

/-- A token is a number exactly when it is one or more digits of value at most 255, and then it is their value. -/
theorem numberArgument_eq_ok {token : List Char} {n : Nat} : numberArgument token = .ok n ↔
    (token ≠ [] ∧ AllDigits token) ∧ Nat.ofDigitChars 10 token 0 = n ∧ n ≤ 255 := by
  cases token with
  | nil => simp [numberArgument]
  | cons c cs =>
    by_cases hdigits : AllDigits (c :: cs)
    · simp only [numberArgument, digitsFrom_of_allDigits hdigits]
      split <;> grind
    · simp [numberArgument, digitsFrom_of_not_allDigits hdigits, hdigits]

/-- A token that is no number is the error naming it. -/
theorem numberArgument_eq_error {token : List Char} {r : AsmReason} (h : numberArgument token = .error r) :
    r = .badNumber token := by
  unfold numberArgument at h
  repeat' split at h
  all_goals cases h
  all_goals rfl

/-- A token is an address exactly when it is a number below 64. -/
theorem addressArgument_eq_ok {token : List Char} {n : Nat} :
    addressArgument token = .ok n ↔ numberArgument token = .ok n ∧ n < 64 := by
  unfold addressArgument
  split
  next m hm =>
    rw [hm]
    split <;> grind
  next hr => simp [hr]

/-- Settles O47: the tokens answered with a value are told by `numberArgument_eq_ok` and `addressArgument_eq_ok`; every
other token is an error. -/
theorem numbersAreDecimalAndBounded : Obligations.NumbersAreDecimalAndBounded := by
  intro token value decimal
  have hnumber (n : Nat) : numberArgument token = .ok n ↔ decimal ∧ value = n ∧ n ≤ 255 := numberArgument_eq_ok
  refine ⟨fun hd hv => (hnumber _).mpr ⟨hd, rfl, hv⟩, ?badNumber,
    fun hd hv => addressArgument_eq_ok.mpr ⟨(hnumber _).mpr ⟨hd, rfl, by omega⟩, hv⟩, ?badAddress⟩
  case badNumber =>
    intro hbad
    cases h : numberArgument token with
    | ok n =>
      obtain ⟨hd, hv, hn⟩ := (hnumber n).mp h
      rcases hbad with hbad | hbad
      · exact absurd hd hbad
      · omega
    | error r => rw [numberArgument_eq_error h]
  case badAddress =>
    intro hbad
    cases h : addressArgument token with
    | ok n =>
      obtain ⟨hn, hlt⟩ := addressArgument_eq_ok.mp h
      obtain ⟨hd, hv, -⟩ := (hnumber n).mp hn
      rcases hbad with hbad | hbad
      · exact absurd hd hbad
      · omega
    | error r => exact ⟨r, rfl⟩

/-- The decimal digits of a number of 0 to 255 are its token. -/
theorem numberArgument_toDigits {n : Nat} (hn : n ≤ 255) : numberArgument (Nat.toDigits 10 n) = .ok n := by
  have hdigits : AllDigits (Nat.toDigits 10 n) := fun c hc =>
    Char.isDigit_iff_toNat.mp (Nat.isDigit_of_mem_toDigits (by decide) (by decide) hc)
  exact numberArgument_eq_ok.mpr ⟨⟨Nat.toDigits_ne_nil, hdigits⟩, Nat.ofDigitChars_ten_toDigits, hn⟩

theorem addressArgument_toDigits {n : Nat} (hn : n < 64) : addressArgument (Nat.toDigits 10 n) = .ok n :=
  addressArgument_eq_ok.mpr ⟨numberArgument_toDigits (by omega), hn⟩

end Sys2Proof.Machine
end

section
/-! SUPPORT. One line of the assembly language (R59 to R62): the mnemonic is cut off, the arguments are split at the comma, and
whitespace around any of them is dropped. -/

namespace Sys2Proof.Machine

/-! ### Whitespace and argument tokens (R61) -/

theorem isBlankChar_iff (c : Char) : isBlankChar c = true ↔ c = ' ' ∨ c = '\t' := by
  simp [isBlankChar]

theorem Blank.isBlankChar {text : List Char} (h : Blank text) : ∀ c ∈ text, isBlankChar c = true :=
  fun c hc => (isBlankChar_iff c).mpr (h c hc)

theorem blank_nil : Blank [] := by simp [Blank]

theorem blank_space : Blank [' '] := by simp [Blank]

theorem Blank.cons {w : Char} {b : List Char} (hw : w = ' ' ∨ w = '\t') (hb : Blank b) : Blank (w :: b) :=
  List.forall_mem_cons.mpr ⟨hw, hb⟩

theorem Blank.comma_not_mem {b : List Char} (h : Blank b) : ',' ∉ b := by
  intro hc
  rcases h _ hc with h | h <;> cases h

theorem trimBlanks_of_blank {b : List Char} (h : Blank b) : trimBlanks b = [] := by
  rw [trimBlanks, skipBlanks_of_all_blank h.isBlankChar]
  rfl

theorem ArgumentToken.not_isBlankChar {a : List Char} (h : ArgumentToken a) {c : Char} (hc : c ∈ a) :
    isBlankChar c = false := by
  obtain ⟨hspace, htab, -⟩ := h.2 c hc
  simp [isBlankChar, hspace, htab]

theorem ArgumentToken.comma_not_mem {a : List Char} (h : ArgumentToken a) : ',' ∉ a :=
  fun hc => (h.2 _ hc).2.2 rfl

theorem ArgumentToken.trimBlanks_around {a before after : List Char} (h : ArgumentToken a) (hb : Blank before)
    (ha : Blank after) : trimBlanks (before ++ a ++ after) = a :=
  Machine.trimBlanks_around hb.isBlankChar ha.isBlankChar (fun _ hc => h.not_isBlankChar (List.mem_of_head? hc))
    (fun _ hc => h.not_isBlankChar (List.mem_of_getLast? hc)) h.1

theorem argumentToken_registerText {d : Nat} (hd : d < 4) : ArgumentToken (registerText d) := by
  interval_cases d <;> simp [ArgumentToken, registerText]

theorem argumentToken_toDigits (n : Nat) : ArgumentToken (Nat.toDigits 10 n) := by
  refine ⟨Nat.toDigits_ne_nil, fun c hc => ?_⟩
  have hdigit : c.isDigit = true := Nat.isDigit_of_mem_toDigits (by decide) (by decide) hc
  refine ⟨?_, ?_, ?_⟩ <;> rintro rfl <;> cases hdigit

/-! ### The arguments after the mnemonic (R61) -/

theorem argumentsOf_of_trimBlanks {text trimmed : List Char} (h : trimBlanks text = trimmed) (hne : trimmed ≠ []) :
    argumentsOf text = (splitAtChar ',' trimmed).map trimBlanks := by
  cases trimmed with
  | nil => exact absurd rfl hne
  | cons c cs => rw [argumentsOf, h]

theorem argumentsOf_nil : argumentsOf [] = [] := rfl

theorem argumentsOf_one {before a : List Char} (hb : Blank before) (ha : ArgumentToken a) :
    argumentsOf (before ++ a) = [a] := by
  have htrim : trimBlanks (before ++ a) = a := by simpa using ha.trimBlanks_around hb blank_nil
  have hself : trimBlanks a = a := by simpa using ha.trimBlanks_around blank_nil blank_nil
  rw [argumentsOf_of_trimBlanks htrim ha.1, splitAtChar_of_not_mem ha.comma_not_mem, List.map_singleton, hself]

theorem argumentsOf_two {b2 b3 b4 a b : List Char} (h2 : Blank b2) (h3 : Blank b3) (h4 : Blank b4)
    (ha : ArgumentToken a) (hb : ArgumentToken b) : argumentsOf (b2 ++ (a ++ b3 ++ ',' :: (b4 ++ b))) = [a, b] := by
  have hhead : ∀ c, (a ++ b3 ++ ',' :: (b4 ++ b)).head? = some c → isBlankChar c = false := by
    intro c hc
    rw [List.append_assoc, List.head?_append_of_ne_nil _ ha.1] at hc
    exact ha.not_isBlankChar (List.mem_of_head? hc)
  have hlast : ∀ c, (a ++ b3 ++ ',' :: (b4 ++ b)).getLast? = some c → isBlankChar c = false := by
    intro c hc
    rw [← List.cons_append, ← List.append_assoc, List.getLast?_append_of_ne_nil _ hb.1] at hc
    exact hb.not_isBlankChar (List.mem_of_getLast? hc)
  have htrim : trimBlanks (b2 ++ (a ++ b3 ++ ',' :: (b4 ++ b))) = a ++ b3 ++ ',' :: (b4 ++ b) := by
    simpa using trimBlanks_around (after := []) h2.isBlankChar blank_nil.isBlankChar hhead hlast (by simp)
  have hsplit : splitAtChar ',' (a ++ b3 ++ ',' :: (b4 ++ b)) = [a ++ b3, b4 ++ b] := by
    rw [splitAtChar_append, splitAtChar_of_not_mem (by simp [ha.comma_not_mem, h3.comma_not_mem]),
      splitAtChar_of_not_mem (by simp [hb.comma_not_mem, h4.comma_not_mem])]
    rfl
  have htrim_a : trimBlanks (a ++ b3) = a := by simpa using ha.trimBlanks_around blank_nil h3
  have htrim_b : trimBlanks (b4 ++ b) = b := by simpa using hb.trimBlanks_around h4 blank_nil
  rw [argumentsOf_of_trimBlanks htrim (by simp), hsplit, List.map_cons, List.map_singleton, htrim_a, htrim_b]

/-! ### The mnemonic (R62) -/

/-- The mnemonic of each operation (R62). -/
def mnemonicText : Opcode → List Char
  | .halt => ['H', 'A', 'L', 'T']
  | .lval => ['L', 'V', 'A', 'L']
  | .load => ['L', 'O', 'A', 'D']
  | .store => ['S', 'T', 'O', 'R', 'E']
  | .add => ['A', 'D', 'D']
  | .sub => ['S', 'U', 'B']
  | .jmp => ['J', 'M', 'P']
  | .mov => ['M', 'O', 'V']

/-- The tokens that are mnemonics are exactly the eight texts, each of its own operation. -/
theorem mnemonicOf_eq_some {token : List Char} {op : Opcode} :
    mnemonicOf token = some op ↔ token = mnemonicText op := by
  constructor
  · intro h
    unfold mnemonicOf at h
    repeat' split at h
    all_goals cases h
    all_goals assumption
  · rintro rfl
    cases op <;> rfl

theorem mnemonicText_ne_nil (op : Opcode) : mnemonicText op ≠ [] := by cases op <;> decide

theorem isBlankChar_of_mem_mnemonicText (op : Opcode) : ∀ c ∈ mnemonicText op, isBlankChar c = false := by
  cases op <;> simp [mnemonicText, isBlankChar]

theorem semicolon_not_mem_mnemonicText (op : Opcode) : ';' ∉ mnemonicText op := by cases op <;> decide

/-! ### The line -/

/-- The outcome of a line that is no comment and not blank, from the outcome of its instruction. -/
theorem assembleLine_of_trimBlanks {line text : List Char} (hcomment : line.head? ≠ some ';')
    (htrim : trimBlanks line = text) (hne : text ≠ []) : assembleLine line = (assembleInstrText text).map some := by
  obtain ⟨c, cs, rfl⟩ := List.exists_cons_of_ne_nil hne
  unfold assembleLine
  split
  next => simp at hcomment
  next =>
    rw [htrim]
    cases h : assembleInstrText (c :: cs) <;> simp [h, Except.map]

/-- A line of a mnemonic, then nothing or whitespace and arguments, is the instruction of the mnemonic with these
arguments, whatever whitespace stands around the line. -/
theorem assembleLine_around {op : Opcode} {before rest after : List Char} (hb : Blank before) (ha : Blank after)
    (hhead : ∀ c, rest.head? = some c → isBlankChar c = true)
    (hlast : ∀ c, rest.getLast? = some c → isBlankChar c = false) :
    assembleLine (before ++ (mnemonicText op ++ rest) ++ after) = (assembleInstr op (argumentsOf rest)).map some := by
  have hne := mnemonicText_ne_nil op
  have htrim : trimBlanks (before ++ (mnemonicText op ++ rest) ++ after) = mnemonicText op ++ rest := by
    refine trimBlanks_around hb.isBlankChar ha.isBlankChar ?_ ?_ (by simp [hne])
    · intro c hc
      rw [List.head?_append_of_ne_nil _ hne] at hc
      exact isBlankChar_of_mem_mnemonicText op c (List.mem_of_head? hc)
    · intro c hc
      cases rest with
      | nil => exact isBlankChar_of_mem_mnemonicText op c (List.mem_of_getLast? (by simpa using hc))
      | cons d ds => exact hlast c (by rwa [List.getLast?_append_of_ne_nil _ (by simp)] at hc)
  have hcomment : (before ++ (mnemonicText op ++ rest) ++ after).head? ≠ some ';' := by
    cases before with
    | nil =>
      rw [List.nil_append, List.append_assoc, List.head?_append_of_ne_nil _ hne]
      exact fun h => semicolon_not_mem_mnemonicText op (List.mem_of_head? h)
    | cons d ds =>
      rintro h
      cases h
      rcases hb ';' List.mem_cons_self with h | h <;> cases h
  rw [assembleLine_of_trimBlanks hcomment htrim (by simp [hne]), assembleInstrText,
    cutAtBlank_append (isBlankChar_of_mem_mnemonicText op) hhead, mnemonicOf_eq_some.mpr rfl]

/-- A line with no argument, whitespace anywhere R61 allows it. -/
theorem assembleLine_none {op : Opcode} {b1 b5 : List Char} (h1 : Blank b1) (h5 : Blank b5) :
    assembleLine (b1 ++ mnemonicText op ++ b5) = (assembleInstr op []).map some := by
  simpa [argumentsOf_nil] using assembleLine_around (op := op) (rest := []) h1 h5 (by simp) (by simp)

/-- A line with one argument, whitespace anywhere R61 allows it. -/
theorem assembleLine_one {op : Opcode} {b1 b2 b5 a : List Char} {w : Char} (hw : w = ' ' ∨ w = '\t') (h1 : Blank b1)
    (h2 : Blank b2) (h5 : Blank b5) (ha : ArgumentToken a) :
    assembleLine (b1 ++ mnemonicText op ++ w :: b2 ++ a ++ b5) = (assembleInstr op [a]).map some := by
  have hline := assembleLine_around (op := op) (rest := w :: b2 ++ a) h1 h5
    (by rintro c ⟨⟩; exact (isBlankChar_iff _).mpr hw)
    (fun c hc => ha.not_isBlankChar
      (List.mem_of_getLast? (by rwa [List.getLast?_append_of_ne_nil _ ha.1] at hc)))
  rw [argumentsOf_one (h2.cons hw) ha] at hline
  simpa using hline

/-- A line with two arguments, whitespace anywhere R61 allows it. -/
theorem assembleLine_two {op : Opcode} {b1 b2 b3 b4 b5 a b : List Char} {w : Char} (hw : w = ' ' ∨ w = '\t')
    (h1 : Blank b1) (h2 : Blank b2) (h3 : Blank b3) (h4 : Blank b4) (h5 : Blank b5) (ha : ArgumentToken a)
    (hb : ArgumentToken b) : assembleLine (b1 ++ mnemonicText op ++ w :: b2 ++ a ++ b3 ++ ',' :: b4 ++ b ++ b5) =
      (assembleInstr op [a, b]).map some := by
  have hline := assembleLine_around (op := op) (rest := w :: b2 ++ (a ++ b3 ++ ',' :: (b4 ++ b))) h1 h5
    (by rintro c ⟨⟩; exact (isBlankChar_iff _).mpr hw)
    (fun c hc => hb.not_isBlankChar (List.mem_of_getLast? (by
      rwa [← List.cons_append, ← List.append_assoc, ← List.append_assoc, List.getLast?_append_of_ne_nil _ hb.1] at hc)))
  rw [argumentsOf_two (h2.cons hw) h3 h4 ha hb] at hline
  simpa using hline

/-- Settles O48: both lines of each clause are the instruction of the same mnemonic and arguments. -/
theorem blanksAroundArgumentsAreIgnored : Obligations.BlanksAroundArgumentsAreIgnored := by
  intro m b1 b2 b3 b4 b5 a b w hm hw h1 h2 h3 h4 h5 ha hb
  obtain ⟨op, hop⟩ := Option.ne_none_iff_exists'.mp hm
  obtain rfl := mnemonicOf_eq_some.mp hop
  refine ⟨?none, ?one, ?two⟩
  case none =>
    rw [assembleLine_none h1 h5]
    simpa using (assembleLine_none (op := op) blank_nil blank_nil).symm
  case one =>
    rw [assembleLine_one hw h1 h2 h5 ha]
    simpa using (assembleLine_one (op := op) (.inl rfl) blank_nil blank_nil blank_nil ha).symm
  case two =>
    rw [assembleLine_two hw h1 h2 h3 h4 h5 ha hb]
    simpa using (assembleLine_two (op := op) (.inl rfl) blank_nil blank_nil blank_nil blank_space blank_nil ha hb).symm

end Sys2Proof.Machine
end

section
/-! SUPPORT. The instruction of an assembly line (R62 to R67): the word of each mnemonic's row, and what an instruction that
was assembled can be. -/

namespace Sys2Proof.Machine

/-- The word of an operation with its two fields (R48, R52). -/
theorem encode_instrOf (op : Opcode) (reg : RegField) (operand : OperandField) :
    encode (instrOf op reg operand) = encodeFields { opcode := codeOf op, reg := reg, operand := operand } := by
  cases op <;> rfl

/-- Two good arguments give the instruction with their two values as fields, and nothing else does. -/
theorem twoArguments_eq_ok {op : Opcode} {second : List Char → Except AsmReason Nat} {args : List (List Char)}
    {i : Instr} : twoArguments op second args = .ok i ↔ ∃ a b d n, args = [a, b] ∧ registerIndex a = .ok d ∧
      second b = .ok n ∧ i = instrOf op (BitVec.ofNat 4 d) (BitVec.ofNat 8 n) := by
  constructor
  · intro h
    unfold twoArguments at h
    split at h
    next a b =>
      split at h
      next d hd =>
        split at h
        next n hn => cases h; exact ⟨a, b, d, n, rfl, hd, hn, rfl⟩
        next => cases h
      next => cases h
    next => cases h
  · rintro ⟨a, b, d, n, rfl, hd, hn, rfl⟩
    simp [twoArguments, hd, hn]

/-- HALT takes no argument (R67). -/
theorem assembleInstr_halt_eq_ok {args : List (List Char)} {i : Instr} (h : assembleInstr .halt args = .ok i) :
    i = .halt 0 0 := by
  simp only [assembleInstr] at h
  split at h <;> cases h
  rfl

/-- JMP takes one argument, an address (R65, R67). -/
theorem assembleInstr_jmp_eq_ok {args : List (List Char)} {i : Instr} (h : assembleInstr .jmp args = .ok i) :
    ∃ n < 64, i = .jmp 0 (BitVec.ofNat 8 n) := by
  simp only [assembleInstr] at h
  split at h
  next a =>
    split at h
    next n hn => cases h; exact ⟨n, (addressArgument_eq_ok.mp hn).2, rfl⟩
    next => cases h
  next => cases h

/-! ### The rows of R62 -/

/-- A line with two good arguments gives the word of its row, where the mnemonic takes a register and a second argument. -/
theorem lineGivesWord_two {op : Opcode} {second : List Char → Except AsmReason Nat}
    (hop : ∀ args, assembleInstr op args = twoArguments op second args) {d n : Nat} {b : List Char} (hd : d < 4)
    (hb : ArgumentToken b) (hn : second b = .ok n) :
    LineGivesWord (mnemonicText op ++ ' ' :: registerText d ++ [',', ' '] ++ b) (codeOf op).toNat d n := by
  refine ⟨instrOf op (BitVec.ofNat 4 d) (BitVec.ofNat 8 n), ?_, ?_⟩
  · have hline := assembleLine_two (op := op) (.inl rfl) blank_nil blank_nil blank_nil blank_space blank_nil
      (argumentToken_registerText hd) hb
    rw [hop, twoArguments_eq_ok.mpr ⟨_, _, d, n, rfl, registerIndex_registerText hd, hn, rfl⟩] at hline
    simpa [Except.map] using hline
  · rw [encode_instrOf, BitVec.ofNat_toNat, BitVec.setWidth_eq]

/-- The rows of a register and an address (R65). -/
theorem lineGivesWord_address {op : Opcode} (hop : ∀ args, assembleInstr op args = twoArguments op addressArgument args)
    {d n : Nat} (hd : d < 4) (hn : n < 64) : LineGivesWord
      (mnemonicText op ++ ' ' :: registerText d ++ [',', ' '] ++ Nat.toDigits 10 n) (codeOf op).toNat d n :=
  lineGivesWord_two hop hd (argumentToken_toDigits n) (addressArgument_toDigits hn)

/-- The rows of two registers (R63). -/
theorem lineGivesWord_registers {op : Opcode} (hop : ∀ args, assembleInstr op args = twoArguments op registerIndex args)
    {d n : Nat} (hd : d < 4) (hn : n < 4) : LineGivesWord
      (mnemonicText op ++ ' ' :: registerText d ++ [',', ' '] ++ registerText n) (codeOf op).toNat d n :=
  lineGivesWord_two hop hd (argumentToken_registerText hn) (registerIndex_registerText hn)

/-- Settles O45: HALT and JMP by their own argument lists, the other six rows as lines of two arguments. -/
theorem mnemonicLinesAssembleToTheirWords : Obligations.MnemonicLinesAssembleToTheirWords := by
  refine ⟨?halt, ?lval, ?load, ?store, ?add, ?sub, ?jmp, ?mov, ?only⟩
  case halt =>
    refine ⟨.halt 0 0, ?_, encode_instrOf .halt 0 0⟩
    exact assembleLine_none (op := .halt) blank_nil blank_nil
  case lval =>
    exact fun d hd n hn => lineGivesWord_two (op := .lval) (fun _ => rfl) hd (argumentToken_toDigits n)
      (numberArgument_toDigits (by omega))
  case load => exact fun d hd a ha => lineGivesWord_address (op := .load) (fun _ => rfl) hd ha
  case store => exact fun s hs a ha => lineGivesWord_address (op := .store) (fun _ => rfl) hs ha
  case add => exact fun d hd s hs => lineGivesWord_registers (op := .add) (fun _ => rfl) hd hs
  case sub => exact fun d hd s hs => lineGivesWord_registers (op := .sub) (fun _ => rfl) hd hs
  case jmp =>
    intro a ha
    refine ⟨.jmp 0 (BitVec.ofNat 8 a), ?_, encode_instrOf .jmp 0 _⟩
    have hline := assembleLine_one (op := .jmp) (.inl rfl) blank_nil blank_nil blank_nil (argumentToken_toDigits a)
    have hinstr : assembleInstr .jmp [Nat.toDigits 10 a] = .ok (.jmp 0 (BitVec.ofNat 8 a)) := by
      simp [assembleInstr, addressArgument_toDigits ha]
    rw [hinstr] at hline
    simpa [mnemonicText, Except.map] using hline
  case mov => exact fun d hd s hs => lineGivesWord_registers (op := .mov) (fun _ => rfl) hd hs
  case only =>
    intro token h
    obtain ⟨op, hop⟩ := Option.ne_none_iff_exists'.mp h
    obtain rfl := mnemonicOf_eq_some.mp hop
    cases op <;> simp [mnemonicText]

/-! ### What was assembled is canonical and in range (R52, R55, R65) -/

/-- Well-formed, with the address of a LOAD, a STORE or a JMP below 64: what the assembler writes (R55, R65). -/
def CanonicalInRange (i : Instr) : Prop :=
  WellFormed i = true ∧ (∀ a, accessedAddress i = some a → a < 64) ∧
    ∀ reg target, i = .jmp reg target → target.toNat < 64

theorem canonicalReg_ofNat {d : Nat} (hd : d < 4) : canonicalReg (BitVec.ofNat 4 d) = true := by
  interval_cases d <;> rfl

theorem canonicalOperandReg_ofNat {d : Nat} (hd : d < 4) : canonicalOperandReg (BitVec.ofNat 8 d) = true := by
  interval_cases d <;> rfl

theorem toNat_address_lt {n : Nat} (hn : n < 64) : (BitVec.ofNat 8 n).toNat < 64 := by
  rw [BitVec.toNat_ofNat]
  omega

/-- What a mnemonic makes of its arguments has its ignored bits 0 and its address below 64. -/
theorem canonicalInRange_of_assembleInstr {op : Opcode} {args : List (List Char)} {i : Instr}
    (h : assembleInstr op args = .ok i) : CanonicalInRange i := by
  cases op with
  | halt =>
    obtain rfl := assembleInstr_halt_eq_ok h
    simp [CanonicalInRange, WellFormed, accessedAddress]
  | lval =>
    obtain ⟨a, b, d, n, -, hd, -, rfl⟩ := twoArguments_eq_ok.mp h
    simp [CanonicalInRange, instrOf, WellFormed, accessedAddress, canonicalReg_ofNat (registerIndex_eq_ok hd).1]
  | load | store =>
    obtain ⟨a, b, d, n, -, hd, hn, rfl⟩ := twoArguments_eq_ok.mp h
    simpa [CanonicalInRange, instrOf, WellFormed, accessedAddress, canonicalReg_ofNat (registerIndex_eq_ok hd).1]
      using toNat_address_lt (addressArgument_eq_ok.mp hn).2
  | jmp =>
    obtain ⟨n, hn, rfl⟩ := assembleInstr_jmp_eq_ok h
    simpa [CanonicalInRange, WellFormed, accessedAddress] using toNat_address_lt hn
  | _ =>
    obtain ⟨a, b, d, n, -, hd, hn, rfl⟩ := twoArguments_eq_ok.mp h
    simp [CanonicalInRange, instrOf, WellFormed, accessedAddress, canonicalReg_ofNat (registerIndex_eq_ok hd).1,
      canonicalOperandReg_ofNat (registerIndex_eq_ok hn).1]

/-- A line that gives an instruction gives that of some mnemonic with some arguments. -/
theorem assembleLine_eq_some {line : List Char} {i : Instr} (h : assembleLine line = .ok (some i)) :
    ∃ op args, assembleInstr op args = .ok i := by
  unfold assembleLine at h
  split at h
  next => cases h
  next =>
    split at h
    next => cases h
    next c cs htrim =>
      split at h
      next j hj =>
        cases h
        unfold assembleInstrText at hj
        split at hj
        next op hop => exact ⟨op, _, hj⟩
        next => cases hj
      next => cases h

end Sys2Proof.Machine
end

section
/-! SUPPORT. A source (R59, R66 to R72): its lines, their instructions in order, and the program image of these. -/

namespace Sys2Proof.Machine

/-! ### The lines of a run (R66, R67, R69) -/

/-- A run is a success exactly when every line is one, and its instructions are those of the lines in order: the number the
lines are counted from does not matter (R66, R69). -/
theorem assembleLines_eq_ok {n : Nat} {lines : List (List Char)} {is : List Instr} : assembleLines n lines = .ok is ↔
    ∃ os : List (Option Instr), lines.map assembleLine = os.map .ok ∧ is = os.reduceOption := by
  induction lines generalizing n is with
  | nil => simp [assembleLines, List.reduceOption_nil, eq_comm]
  | cons line rest ih =>
    simp only [assembleLines, List.map_cons]
    constructor
    · intro h
      split at h
      next => cases h
      next hline =>
        obtain ⟨os, hos, rfl⟩ := ih.mp h
        exact ⟨none :: os, by simp [hline, hos], (List.reduceOption_cons_of_none _).symm⟩
      next i hline =>
        split at h
        next js hrest =>
          cases h
          obtain ⟨os, hos, rfl⟩ := ih.mp hrest
          exact ⟨some i :: os, by simp [hline, hos], (List.reduceOption_cons_of_some _ _).symm⟩
        next => cases h
    · rintro ⟨os, hos, rfl⟩
      cases os with
      | nil => simp at hos
      | cons o os =>
        obtain ⟨hline, hrest⟩ := List.cons_eq_cons.mp hos
        have ih' : assembleLines (n + 1) rest = .ok os.reduceOption := ih.mpr ⟨os, hrest, rfl⟩
        cases o with
        | none => rw [hline, List.reduceOption_cons_of_none]; exact ih'
        | some i => rw [hline, List.reduceOption_cons_of_some, ih']

/-- The first line that is an error ends the run with its reason and its number (R67). -/
theorem assembleLines_eq_error {n : Nat} {before after : List (List Char)} {bad : List Char} {r : AsmReason}
    (hbefore : ∀ line ∈ before, ∃ o, assembleLine line = .ok o) (hbad : assembleLine bad = .error r) :
    assembleLines n (before ++ bad :: after) = .error { line := n + before.length, reason := r } := by
  induction before generalizing n with
  | nil => simp [assembleLines, hbad]
  | cons line before ih =>
    obtain ⟨⟨o, ho⟩, hrest⟩ := List.forall_mem_cons.mp hbefore
    have ih' := ih (n := n + 1) hrest
    rw [Nat.add_right_comm, Nat.add_assoc] at ih'
    cases o <;> simp [assembleLines, ho, ih']

/-- Settles O51: the error of the run is the run's report. -/
theorem firstBadLineFailsTheRun : Obligations.FirstBadLineFailsTheRun := by
  intro source before after bad r hlines hbefore hbad
  rw [assemble, assembleInstrs, hlines, assembleLines_eq_error hbefore hbad, Nat.add_comm]

/-- A line break parts the lines before it from the lines after it. -/
theorem sourceLines_append (a b : List Char) : sourceLines (a ++ '\n' :: b) = sourceLines a ++ sourceLines b := by
  rw [sourceLines, splitAtChar_append, List.map_append, sourceLines, sourceLines]

/-- Settles O52: the lines of the joined source are the lines of both, and each line's outcome is its own. -/
theorem sourcesAssembleIndependently : Obligations.SourcesAssembleIndependently := by
  intro a b is js ha hb
  obtain ⟨os, hos, rfl⟩ := assembleLines_eq_ok.mp ha
  obtain ⟨os', hos', rfl⟩ := assembleLines_eq_ok.mp hb
  refine assembleLines_eq_ok.mpr ⟨os ++ os', ?_, (List.reduceOption_append _ _).symm⟩
  rw [sourceLines_append, List.map_append, List.map_append, hos, hos']

/-- Settles O49: each instruction of a source is that of one of its lines. -/
theorem assembledInstructionsAreCanonicalAndInRange : Obligations.AssembledInstructionsAreCanonicalAndInRange := by
  intro source is h i hi
  obtain ⟨os, hos, rfl⟩ := assembleLines_eq_ok.mp h
  have hmem : .ok (some i) ∈ (sourceLines source).map assembleLine :=
    hos ▸ List.mem_map_of_mem (List.reduceOption_mem_iff.mp hi)
  obtain ⟨line, -, hline⟩ := List.mem_map.mp hmem
  obtain ⟨op, args, hinstr⟩ := assembleLine_eq_some hline
  exact canonicalInRange_of_assembleInstr hinstr

/-! ### The image (R66, R70, R115, R116) -/

theorem imageWords_imageOf (is : List Instr) : imageWords (imageOf is) = some (is.map encode) := by
  induction is with
  | nil => rfl
  | cons i is ih =>
    simp [imageOf, bytesOfWord, imageWords, ih, wordOfBytes_bytes]

/-- The image of instructions is accepted exactly when they are at most 64 (R115). -/
theorem checkImage_imageOf (is : List Instr) :
    checkImage (imageOf is) = if is.length ≤ 64 then .ok (is.map encode) else .error .tooLong := by
  simp only [checkImage, imageWords_imageOf, List.length_map]

theorem assemble_eq_ok {source : List Char} {is : List Instr} (h : assembleInstrs source = .ok is) :
    assemble source = .ok (imageOf is) := by
  simp [assemble, h]

/-- Settles O50: the words the load reads from an image are the words it was made of. -/
theorem assembledImageLoadsBack : Obligations.AssembledImageLoadsBack := by
  intro source is h
  refine ⟨imageOf is, assemble_eq_ok h, ?length, ?accepted, ?refused⟩
  case length =>
    rw [imageWords_length (imageWords_imageOf is), List.length_map]
  case accepted =>
    intro hfits s
    simp [runCommand, loadImage, checkImage_imageOf, hfits]
  case refused =>
    intro hlong s
    simp [runCommand, loadImage, checkImage_imageOf, Nat.not_le.mpr hlong]

/-! ### A source with no instruction (R60, R72) -/

/-- A comment or blank line gives no instruction (R60). -/
theorem assembleLine_eq_none {line : List Char} (h : (∃ cs, line = ';' :: cs) ∨ Blank line) :
    assembleLine line = .ok none := by
  rcases h with ⟨cs, rfl⟩ | hblank
  · rfl
  · unfold assembleLine
    split
    next => rfl
    next => rw [trimBlanks_of_blank hblank]

/-- A block on a memory of zeros fetches the word 0, a HALT, and halts (R85). -/
theorem step_resetFrom_nil : step (State.resetFrom []) = .next ((State.resetFrom []).latch 0).setHalted := by
  have hfetched : decode 0 = .ok (.halt 0 0) := (decode_eq_ok_iff_encode _ _).mpr rfl
  calc step (State.resetFrom [])
      = execute ((State.resetFrom []).latch 0) :=
        step_eq_execute_latch (s := State.resetFrom []) (by simp) rfl (by decide)
    _ = exec (.halt 0 0) ((State.resetFrom []).latch 0) := execute_eq_exec hfetched
    _ = .next ((State.resetFrom []).latch 0).setHalted := rfl

/-- Settles O53: no line gives an instruction, and the image of none loads as the program of 0 words. -/
theorem sourceWithoutInstructionsHaltsAtOnce : Obligations.SourceWithoutInstructionsHaltsAtOnce := by
  intro source hlines
  refine ⟨assemble_eq_ok (is := []) (assembleLines_eq_ok.mpr ⟨(sourceLines source).map fun _ => none, ?outcomes, ?none⟩),
    fun s => ⟨State.resetFrom [], _, rfl, fun a => Memory.wordAt_nil a, step_resetFrom_nil, rfl⟩⟩
  case outcomes =>
    rw [List.map_map]
    exact List.map_congr_left fun line hline => assembleLine_eq_none (hlines line hline)
  case none =>
    rw [List.map_const', List.reduceOption_replicate_none]

end Sys2Proof.Machine
end

section
/-! SUPPORT. Frames: what each operation of the state leaves unchanged, once each, and how frames compose. -/

namespace Sys2Proof.Machine

/-- What two changes one after the other leave unchanged. -/
theorem State.UnchangedBut.trans {s t u : State} {a b : List Element} (h : s.UnchangedBut t a)
    (h' : t.UnchangedBut u b) : s.UnchangedBut u (a ++ b) := by
  have first {e : Element} (he : e ∉ a ++ b) : e ∉ a := fun hmem => he (List.mem_append_left b hmem)
  have second {e : Element} (he : e ∉ a ++ b) : e ∉ b := fun hmem => he (List.mem_append_right a hmem)
  exact {
    reg := fun n hn he => (h'.reg n hn (second he)).trans (h.reg n hn (first he))
    pc := fun he => (h'.pc (second he)).trans (h.pc (first he))
    ir := fun he => (h'.ir (second he)).trans (h.ir (first he))
    word := fun n he => (h'.word n (second he)).trans (h.word n (first he))
    halted := fun he => (h'.halted (second he)).trans (h.halted (first he))
    fault := fun he => (h'.fault (second he)).trans (h.fault (first he))
    program := fun he => (h'.program (second he)).trans (h.program (first he)) }

/-- A latch writes `ir` and `pc` (R74). -/
theorem unchangedBut_latch (s : State) (w : Word) : s.UnchangedBut (s.latch w) [.ir, .pc] where
  reg _ _ _ := rfl
  pc h := absurd (List.mem_cons_of_mem _ List.mem_cons_self) h
  ir h := absurd List.mem_cons_self h
  word _ _ := rfl
  halted _ := rfl
  fault _ := rfl
  program _ := rfl

/-- A write through a reg field writes the register of its low 2 bits (R12). -/
theorem unchangedBut_writeReg (s : State) (reg : RegField) (v : Word) :
    s.UnchangedBut (s.writeReg (regSel reg) v) [.reg (reg.toNat % 4)] where
  reg n hn h := by
    have hne : n ≠ regIndex (regSel reg) := by
      rw [regIndex_regSel]
      rintro rfl
      exact h List.mem_cons_self
    rw [State.x_writeReg s _ v n hn, if_neg hne]
  pc _ := rfl
  ir _ := rfl
  word _ _ := rfl
  halted _ := rfl
  fault _ := rfl
  program _ := rfl

/-- A memory write writes the word at its address. -/
theorem unchangedBut_setWord (s : State) (a : Nat) (v : Word) :
    s.UnchangedBut (s.setMem (s.mem.setWord a v)) [.word a] where
  reg _ _ _ := rfl
  pc _ := rfl
  ir _ := rfl
  word b h := by
    have hne : b ≠ a := by
      rintro rfl
      exact h List.mem_cons_self
    rw [State.setMem_mem, Memory.wordAt_setWord, if_neg hne]
  halted _ := rfl
  fault _ := rfl
  program _ := rfl

theorem unchangedBut_setPc (s : State) (v : Word) : s.UnchangedBut (s.setPc v) [.pc] where
  reg _ _ _ := rfl
  pc h := absurd List.mem_cons_self h
  ir _ := rfl
  word _ _ := rfl
  halted _ := rfl
  fault _ := rfl
  program _ := rfl

theorem unchangedBut_setHalted (s : State) : s.UnchangedBut s.setHalted [.halted] where
  reg _ _ _ := rfl
  pc _ := rfl
  ir _ := rfl
  word _ _ := rfl
  halted h := absurd List.mem_cons_self h
  fault _ := rfl
  program _ := rfl

/-- A meaning that leaves no fault writes at most the element of R77 that its instruction names. -/
theorem unchangedBut_exec {i : Instr} {s t : State} (h : exec i s = .next t) (hf : t.fault = .none) :
    s.UnchangedBut t [writtenElement i] := by
  cases i with
  | halt reg operand => cases h; exact unchangedBut_setHalted s
  | load reg addr8 =>
    rw [exec_load] at h
    rcases Nat.lt_or_ge addr8.toNat 64 with ha | ha
    · rw [execLoad_next _ _ _ ha] at h
      cases h; exact unchangedBut_writeReg s reg _
    · rw [execLoad_raise _ _ _ ha] at h
      cases h; cases hf
  | store reg addr8 =>
    rw [exec_store] at h
    rcases Nat.lt_or_ge addr8.toNat 64 with ha | ha
    · rw [execStore_next _ _ _ ha] at h
      cases h; exact unchangedBut_setWord s addr8.toNat _
    · rw [execStore_raise _ _ _ ha] at h
      cases h; cases hf
  | jmp reg target => cases h; exact unchangedBut_setPc s _
  | lval reg | add reg | sub reg | mov reg => cases h; exact unchangedBut_writeReg s reg _

end Sys2Proof.Machine
end

section
/-! SUPPORT. The cycle (R73 to R77, R94, R95): what the fetch phase writes, and what the execute phase adds to it. -/

namespace Sys2Proof.Machine

/-- Settles O17: below address 64 a fetch is a latch, and from 64 on it is a fault entered. -/
theorem fetchLatchesTheWordOrFaults : Obligations.FetchLatchesTheWordOrFaults := by
  refine ⟨fun s hpc => ?latched, fun s hpc => ?faulted⟩
  case latched =>
    rw [fetch_eq_latch hpc]
    exact ⟨rfl, BitVec.toNat_add _ _, unchangedBut_latch s _⟩
  case faulted =>
    rw [fetch_eq_raise hpc]
    exact ⟨rfl, unchangedBut_raise s _⟩

/-- Settles O16: the step is the execute phase on the latched word, which decodes. -/
theorem stepRunsTheDecodedInstruction : Obligations.StepRunsTheDecodedInstruction := by
  intro s i ⟨hr, hp⟩ hpc hi
  calc step s
      = execute (s.latch (s.mem.wordAt s.pc.toNat)) := step_eq_execute_latch hp hr hpc
    _ = exec i (s.latch (s.mem.wordAt s.pc.toNat)) := execute_eq_exec hi

/-- Settles O24: without a fault the step is a latch and then the meaning of the fetched instruction, and their frames
compose. -/
theorem faultFreeCycleWritesOneMoreElement : Obligations.FaultFreeCycleWritesOneMoreElement := by
  intro s t ⟨hrun, _⟩ h hf
  obtain ⟨_, ⟨hend, _⟩ | ⟨_, _, rfl⟩ | ⟨_, _, _, rfl⟩ | ⟨_, _, i, hi, hexec⟩⟩ := step_cases h
  · exact absurd hrun hend
  · cases hf
  · cases hf
  · have hframe := unchangedBut_exec hexec hf
    have hexecute : execute (s.latch (s.mem.wordAt s.pc.toNat)) = .next t :=
      (execute_eq_exec (s := s.latch _) hi).trans hexec
    exact ⟨i, hi, execute_ir hexecute, (unchangedBut_latch s _).trans hframe,
      fun hne => hframe.pc (by simpa using hne.symm)⟩

/-- The execute phase leaves `pc` unless the opcode in `ir` is 6 (R95). -/
theorem execute_pc_of_opcode_ne_six {s t : State} (h : execute s = .next t) (hop : s.ir.toNat / 4096 ≠ 6) :
    t.pc = s.pc := by
  obtain ⟨i, hi, hexec⟩ | ⟨_, _, rfl⟩ := execute_cases h
  · obtain ⟨_, _, rfl⟩ | ⟨_, _, _, _, rfl⟩ | ⟨_, _, rfl, _⟩ | ⟨_, _, _, rfl⟩ | ⟨_, _, _, rfl⟩ := exec_cases hexec
    · rfl
    · rfl
    · exact absurd (opcode_of_decode_ok hi) hop
    · rfl
    · rfl
  · rfl

/-- Below address 64 the address plus one does not wrap (R16). -/
theorem pc_succ_toNat {s : State} (hpc : s.pc.toNat < 64) : (s.pc + 1).toNat = s.pc.toNat + 1 := by
  bv_omega

/-- Settles O31: the latch leaves the address plus one, and only a JMP writes `pc` after it. -/
theorem onlyJmpLeavesStraightLineOrder : Obligations.OnlyJmpLeavesStraightLineOrder := by
  intro s t ⟨hr, hp⟩ hpc h hop
  rw [step_eq_execute_latch hp hr hpc] at h
  rw [execute_pc_of_opcode_ne_six h hop, State.latch_pc, pc_succ_toNat hpc]

end Sys2Proof.Machine
end

section
/-! SUPPORT. The end of a run (R78, R81, R101, R126): no list of phase commands leaves it, so a run has one result. -/

namespace Sys2Proof.Machine

/-- Before the first load every command but LOAD has no step (R117). -/
theorem runCommand_of_no_program {c : Command} {s : State} (hp : s.program = none) (hc : ∀ image, c ≠ .load image) :
    runCommand c s = .fault .noProgram := by
  cases c with
  | load image => exact absurd rfl (hc image)
  | reset => simp only [runCommand, resetCommand, hp]
  | cycle => simp only [runCommand, cycleCommand, hp]
  | fetch => simp only [runCommand, fetchCommand, hp]
  | execute => simp only [runCommand, executeCommand, hp]

/-- After the end of a run CYCLE, FETCH and EXECUTE change nothing (R78, R81). -/
theorem runCommand_phase_of_ended {c : Command} {s : State} (hc : c = .cycle ∨ c = .fetch ∨ c = .execute)
    (hp : s.program ≠ none) (hend : s.Ended) : runCommand c s = .next s := by
  obtain ⟨t, ht, _⟩ := runCommand_phase_next hc hp
  obtain hreset | rfl := runCommand_of_not_running ht hend
  · obtain rfl | rfl | rfl := hc <;> simp at hreset
  · exact ht

/-- Settles O25: the three commands are the phase commands of `runCommand_phase_of_ended`. -/
theorem endedBlockTakesNoStep : Obligations.EndedBlockTakesNoStep :=
  fun _ hp hend => ⟨runCommand_phase_of_ended (.inl rfl) hp hend, runCommand_phase_of_ended (.inr (.inl rfl)) hp hend,
    runCommand_phase_of_ended (.inr (.inr rfl)) hp hend⟩

/-- Settles O26, by induction on the list: each command leaves the state where the rest of the list starts. -/
theorem endedStatesAreTerminal : Obligations.EndedStatesAreTerminal := by
  intro cs s hp hend hcs
  induction cs with
  | nil => rfl
  | cons c cs ih =>
    obtain ⟨hc, hcs⟩ := List.forall_mem_cons.mp hcs
    calc runCommands (c :: cs) s
        = runCommands cs s := runCommands_cons c cs s s (runCommand_phase_of_ended hc hp hend)
      _ = .next s := ih hcs

/-- The rest of a list runs from where its first part ends. -/
theorem runCommands_append {before after : List Command} {s t : State} (h : runCommands before s = .next t) :
    runCommands (before ++ after) s = runCommands after t := by
  induction before generalizing s with
  | nil => cases h; rfl
  | cons c before ih =>
    simp only [List.cons_append, runCommands] at h ⊢
    cases hc : runCommand c s with
    | next u =>
      rw [hc] at h
      exact ih h
    | fault r => rw [hc] at h; cases h
    | refused r => rw [hc] at h; cases h

/-- More cycles after the end of a run, where they have a step, leave its result. -/
theorem runCommands_cycles_of_ended {k : Nat} {s t : State} (hend : s.Ended)
    (h : runCommands (List.replicate k .cycle) s = .next t) : t = s := by
  cases hp : s.program with
  | some p =>
    rw [endedStatesAreTerminal _ s (by simp [hp]) hend fun c hc => .inl (List.eq_of_mem_replicate hc)] at h
    cases h; rfl
  | none =>
    cases k with
    | zero => cases h; rfl
    | succ k =>
      have hfault : runCommand .cycle s = .fault .noProgram := runCommand_of_no_program hp nofun
      simp [List.replicate_succ, runCommands, hfault] at h

/-- The longer of two halting runs has the result of the shorter one. -/
theorem State.HaltsAfter.eq_of_le {s t u : State} {j k : Nat} (hj : s.HaltsAfter j t) (hk : s.HaltsAfter k u)
    (hle : j ≤ k) : u = t := by
  obtain ⟨hrunj, hhalted⟩ := hj
  obtain ⟨hrunk, _⟩ := hk
  obtain ⟨n, rfl⟩ := Nat.exists_eq_add_of_le hle
  rw [List.replicate_add, runCommands_append hrunj] at hrunk
  exact runCommands_cycles_of_ended (by simp [State.Ended, hhalted]) hrunk

/-- Settles O36: one of the two numbers of cycles is the smaller. -/
theorem runHasOneResult : Obligations.RunHasOneResult := by
  intro s t u j k hj hk
  rcases Nat.le_total j k with hle | hle
  · exact (hj.eq_of_le hk hle).symm
  · exact hk.eq_of_le hj hle

end Sys2Proof.Machine
end

section
/-! SUPPORT. The split phases (R80 to R82, R124): FETCH and EXECUTE alone, and as the two halves of a CYCLE. -/

namespace Sys2Proof.Machine

theorem canCycle_latch {s : State} (hs : s.CanCycle) (w : Word) : (s.latch w).CanCycle :=
  ⟨(runState_latch s w).trans hs.1, hs.2⟩

/-- A FETCH below address 64 is a latch (R74, R80). -/
theorem fetchCommand_eq_latch {s : State} (hs : s.CanCycle) (hpc : s.pc.toNat < 64) :
    runCommand .fetch s = .next (s.latch (s.mem.wordAt s.pc.toNat)) := by
  rw [fetchCommand_eq hs.2, if_pos hs.1, fetch_eq_latch hpc]

/-- An EXECUTE of a Running block is the execute phase (R80). -/
theorem executeCommand_eq_execute {s : State} (hs : s.CanCycle) : runCommand .execute s = execute s := by
  rw [executeCommand_eq hs.2, if_pos hs.1]

/-- A command that answers a next state and is no LOAD finds a program recorded (R117). -/
theorem program_ne_none_of_runCommand {c : Command} {s t : State} (h : runCommand c s = .next t)
    (hc : ∀ image, c ≠ .load image) : s.program ≠ none := by
  intro hp
  rw [runCommand_of_no_program hp hc] at h
  cases h

/-- A fault entered ends the run (R24, R100). -/
theorem ended_raise (s : State) {c : FaultStatus} (hc : c ≠ .none) : (s.raise c).Ended := by
  simp [State.Ended, State.runState_running_iff, hc]

/-- EXECUTE after FETCH is CYCLE: the two phases where the fetch latches, and nothing more where it faults or the run has
ended (R80, R81). -/
theorem executeCommand_after_fetch {s t : State} (h : runCommand .fetch s = .next t) :
    runCommand .execute t = runCommand .cycle s := by
  have hp : s.program ≠ none := program_ne_none_of_runCommand h nofun
  obtain ⟨hend, rfl⟩ | ⟨hr, rfl⟩ := fetchCommand_cases h
  · rw [runCommand_phase_of_ended (.inr (.inr rfl)) hp hend, runCommand_phase_of_ended (.inl rfl) hp hend]
  · rcases Nat.lt_or_ge s.pc.toNat 64 with hpc | hpc
    · rw [fetch_eq_latch hpc, executeCommand_eq_execute (canCycle_latch ⟨hr, hp⟩ _)]
      exact (step_eq_execute_latch hp hr hpc).symm
    · have hend : (s.raise .fetchOutOfRange).Ended := ended_raise s nofun
      rw [fetch_eq_raise hpc, runCommand_phase_of_ended (.inr (.inr rfl)) (s := s.raise .fetchOutOfRange) hp hend]
      exact ((step_eq_cycle hp).trans (cycle_of_fetch_raise hr hpc)).symm

/-- Settles O27: the first clause is `executeCommand_after_fetch`, the second the latch and its frame. -/
theorem fetchThenExecuteIsOneCycle : Obligations.FetchThenExecuteIsOneCycle :=
  ⟨fun _ _ => executeCommand_after_fetch,
    fun s hs hpc => ⟨_, fetchCommand_eq_latch hs hpc, rfl, rfl, unchangedBut_latch s _⟩⟩

theorem runCommands_singleton (c : Command) (s : State) : runCommands [c] s = runCommand c s := by
  simp only [runCommands]
  cases runCommand c s <;> rfl

/-- The second of two latches leaves its own word in `ir`, and `pc` two on. -/
theorem latch_latch (s : State) (v w : Word) : (s.latch v).latch w = { s with ir := w, pc := s.pc + 2 } := by
  simp only [State.latch, BitVec.add_assoc]
  rfl

/-- The word that reset leaves in `ir` is a HALT (R82, R118). -/
theorem execute_resetFrom (p : Program) : execute (State.resetFrom p) = .next (State.resetFrom p).setHalted :=
  execute_eq_exec (i := .halt 0 0) ((decode_eq_ok_iff_encode _ _).mpr rfl)

/-- Settles O28: two FETCH commands are two latches, an EXECUTE is the meaning of `ir`, and reset leaves a HALT there. -/
theorem phasesDoTheirRuleWhateverCameBefore : Obligations.PhasesDoTheirRuleWhateverCameBefore := by
  refine ⟨fun s hs hpc => ?twoFetches, fun s i hs hi => ?noFetch, fun s t h => ?afterReset⟩
  case twoFetches =>
    have hpc1 : s.pc.toNat < 64 := by omega
    have hpc2 : (s.latch (s.mem.wordAt s.pc.toNat)).pc.toNat = s.pc.toNat + 1 := pc_succ_toNat hpc1
    rw [runCommands_cons _ _ _ _ (fetchCommand_eq_latch hs hpc1),
      runCommands_cons _ _ _ _ (fetchCommand_eq_latch (canCycle_latch hs _) (hpc2 ▸ hpc)), runCommands_singleton,
      latch_latch, hpc2, State.latch_mem]
  case noFetch =>
    rw [executeCommand_eq_execute hs, execute_eq_exec hi]
  case afterReset =>
    obtain ⟨p, _, rfl⟩ := resetCommand_cases h
    have hcan : (State.resetFrom p).CanCycle := ⟨rfl, by simp⟩
    exact ⟨_, (executeCommand_eq_execute hcan).trans (execute_resetFrom p), rfl, unchangedBut_setHalted _⟩

/-! ### Lists that keep the host's duty -/

/-- Lists with one outcome from every state have one outcome after one command. -/
theorem runCommands_cons_congr {cs ds : List Command} (h : ∀ s, runCommands cs s = runCommands ds s) (c : Command)
    (s : State) : runCommands (c :: cs) s = runCommands (c :: ds) s := by
  simp only [runCommands]
  cases runCommand c s with
  | next t => exact h t
  | fault r => rfl
  | refused r => rfl

/-- In front of any list a FETCH, EXECUTE pair is a CYCLE, before the first load too (R80). -/
theorem runCommands_fetch_execute (cs : List Command) (s : State) :
    runCommands (.fetch :: .execute :: cs) s = runCommands (.cycle :: cs) s := by
  cases hp : s.program with
  | none =>
    have hfetch : runCommand .fetch s = .fault .noProgram := runCommand_of_no_program hp nofun
    have hcycle : runCommand .cycle s = .fault .noProgram := runCommand_of_no_program hp nofun
    simp only [runCommands, hfetch, hcycle]
  | some p =>
    have hfetch := fetchCommand_eq (s := s) (by simp [hp])
    rw [runCommands_cons _ _ _ _ hfetch]
    simp only [runCommands, executeCommand_after_fetch hfetch]

/-- The list `ds` holds no FETCH and no EXECUTE, and has from every state the outcome of `cs`. -/
def IsCycleSequenceOf (cs ds : List Command) : Prop :=
  .fetch ∉ ds ∧ .execute ∉ ds ∧ ∀ s, runCommands cs s = runCommands ds s

theorem isCycleSequenceOf_cons {c : Command} {cs ds : List Command} (h : IsCycleSequenceOf cs ds)
    (hfetch : c ≠ .fetch) (hexecute : c ≠ .execute) : IsCycleSequenceOf (c :: cs) (c :: ds) := by
  obtain ⟨hnofetch, hnoexecute, heq⟩ := h
  exact ⟨List.not_mem_cons_of_ne_of_not_mem hfetch.symm hnofetch,
    List.not_mem_cons_of_ne_of_not_mem hexecute.symm hnoexecute, runCommands_cons_congr heq c⟩

theorem isCycleSequenceOf_pair {cs ds : List Command} (h : IsCycleSequenceOf cs ds) :
    IsCycleSequenceOf (.fetch :: .execute :: cs) (.cycle :: ds) := by
  obtain ⟨hnofetch, hnoexecute, heq⟩ := isCycleSequenceOf_cons (c := .cycle) h nofun nofun
  exact ⟨hnofetch, hnoexecute, fun s => (runCommands_fetch_execute cs s).trans (heq s)⟩

/-- Settles O29, by induction along the duty's own recursion: a pair becomes one CYCLE, any other command stays. -/
theorem contractSequencesAreCycleSequences : Obligations.ContractSequencesAreCycleSequences := by
  intro cs hduty
  change IsCycleSequenceOf cs (pairsAsCycles cs)
  induction cs using hostKeepsContract.induct with
  | case1 => exact ⟨List.not_mem_nil, List.not_mem_nil, fun _ => rfl⟩
  | case2 cs ih => exact isCycleSequenceOf_pair (ih hduty)
  | case3 cs hne => simp [hostKeepsContract] at hduty
  | case4 cs => cases hduty
  | case5 image cs ih => exact isCycleSequenceOf_cons (ih hduty) nofun nofun
  | case6 cs ih => exact isCycleSequenceOf_cons (ih hduty) nofun nofun
  | case7 cs ih => exact isCycleSequenceOf_cons (ih hduty) nofun nofun

end Sys2Proof.Machine
end

section
/-! SUPPORT. HALT (R85): its word, the end of the run it sets, and the cycles that can set it. -/

namespace Sys2Proof

/-- A word whose opcode field is the code of an operation decodes to that operation, with its other two fields whole
(R46, R52). -/
theorem decode_of_opcode {w : Word} {op : Opcode} (h : w.toNat / 4096 = (codeOf op).toNat) :
    decode w = .ok (instrOf op (BitVec.ofNat 4 (w.toNat / 256)) (BitVec.ofNat 8 w.toNat)) := by
  have hopcode : (decodeFields w).opcode = codeOf op :=
    BitVec.eq_of_toNat_eq ((decodeFields_opcode_toNat w).trans h)
  have hreg : (decodeFields w).reg = BitVec.ofNat 4 (w.toNat / 256) :=
    BitVec.eq_of_toNat_eq (by simp [decodeFields_reg_toNat])
  have hoperand : (decodeFields w).operand = BitVec.ofNat 8 w.toNat :=
    BitVec.eq_of_toNat_eq (by simp [decodeFields_operand_toNat])
  rw [decode, (opcodeFromCode_eq_some _ op).mpr hopcode, hreg, hoperand]

end Sys2Proof

namespace Sys2Proof.Machine

/-- A HALT ends the run, in Halted or, where a fault was raised before, in Faulted (R24, R78). -/
theorem ended_setHalted (s : State) : s.setHalted.Ended := by
  simp [State.Ended, State.runState_running_iff]

/-- A step of a Running block below address 64 leaves the fetched word in `ir` (R20, R74). -/
theorem step_ir {s t : State} (h : step s = .next t) (hr : s.runState = .running) (hpc : s.pc.toNat < 64) :
    t.ir = s.mem.wordAt s.pc.toNat := by
  obtain ⟨hp, _⟩ := step_cases h
  rw [step_eq_execute_latch hp hr hpc] at h
  rw [execute_ir h, State.latch_ir]

/-- A step that turns the halted flag on is from a Running block that fetches: the end of a run changes nothing, and a
fetch out of range raises its fault alone. -/
theorem step_sets_halted_fetches {s t : State} (h : step s = .next t) (hs : s.halted = false) (ht : t.halted = true) :
    s.runState = .running ∧ s.pc.toNat < 64 := by
  obtain ⟨_, ⟨_, rfl⟩ | ⟨_, _, rfl⟩ | ⟨hr, hpc, _⟩ | ⟨hr, hpc, _⟩⟩ := step_cases h
  · simp [hs] at ht
  · simp [hs] at ht
  · exact ⟨hr, hpc⟩
  · exact ⟨hr, hpc⟩

/-- Settles O8: the meaning of HALT is `setHalted`, after which the run has ended; and a step that sets the flag leaves the
opcode 0 in `ir`, where the fetched word is. -/
theorem haltSetsTheHaltedFlagOnly : Obligations.HaltSetsTheHaltedFlagOnly := by
  refine ⟨fun w hop => ?decoded, fun reg operand s => ?executed, fun s t h hs ht => ?set⟩
  case decoded =>
    exact decode_of_opcode (op := .halt) hop
  case executed =>
    have hexec : exec (.halt reg operand) s = .next s.setHalted :=
      (exec_halt reg operand s).trans (execHalt_next reg operand s)
    exact ⟨_, hexec, State.setHalted_halted s, unchangedBut_setHalted s,
      fun hp => runCommand_phase_of_ended (.inl rfl) hp (ended_setHalted s)⟩
  case set =>
    obtain ⟨hr, hpc⟩ := step_sets_halted_fetches h hs ht
    rw [← step_ir h hr hpc]
    exact step_sets_halted h hs ht

end Sys2Proof.Machine
end

section
/-! SUPPORT. Data movement (R87 to R90): the value each instruction moves, and the frame of the register, memory word or
fault it writes. -/

namespace Sys2Proof.Machine

/-- The reg field names by its low 2 bits the register that is written through it (R12). -/
theorem x_writeReg_regSel (s : State) (reg : RegField) (v : Word) :
    (s.writeReg (regSel reg) v).x (reg.toNat % 4) = v := by
  rw [← regIndex_regSel, State.x_writeReg s _ v _ (regIndex_lt _), if_pos rfl]

/-- A meaning that writes one register through its reg field puts the value there and changes nothing else. -/
theorem next_writeReg_regSel {i : Instr} {reg : RegField} {s : State} {v : Word}
    (h : exec i s = .next (s.writeReg (regSel reg) v)) :
    ∃ t, exec i s = .next t ∧ t.x (reg.toNat % 4) = v ∧ s.UnchangedBut t [.reg (reg.toNat % 4)] :=
  ⟨_, h, x_writeReg_regSel s reg v, unchangedBut_writeReg s reg v⟩

/-- A meaning that enters a fault sets that fault and changes nothing else (R100). -/
theorem next_raise {i : Instr} {s : State} {c : FaultStatus} (h : exec i s = .next (s.raise c)) :
    ∃ t, exec i s = .next t ∧ t.fault = c ∧ s.UnchangedBut t [.fault] :=
  ⟨_, h, State.raise_fault s c, unchangedBut_raise s c⟩

/-- Settles O9: LVAL writes the zero-extended operand, which is the same number. -/
theorem lvalWritesTheZeroExtendedImmediate : Obligations.LvalWritesTheZeroExtendedImmediate := by
  refine ⟨fun w hop => ?decoded, fun reg imm8 s => ?executed⟩
  case decoded =>
    exact decode_of_opcode (op := .lval) hop
  case executed =>
    obtain ⟨t, hexec, hvalue, hframe⟩ :=
      next_writeReg_regSel ((exec_lval reg imm8 s).trans (execLval_next reg imm8 s))
    exact ⟨t, hexec, by rw [hvalue, zext16_toNat], hframe⟩

/-- Settles O10: below address 64 LOAD writes the word that is read, and from 64 on it enters the fault. -/
theorem loadReadsTheAddressedWordOrFaults : Obligations.LoadReadsTheAddressedWordOrFaults := by
  refine ⟨fun w hop => ?decoded, fun reg addr8 s ha => ?loaded, fun reg addr8 s ha => ?faulted⟩
  case decoded =>
    exact decode_of_opcode (op := .load) hop
  case loaded =>
    exact next_writeReg_regSel ((exec_load reg addr8 s).trans (execLoad_next reg addr8 s ha))
  case faulted =>
    exact next_raise ((exec_load reg addr8 s).trans (execLoad_raise reg addr8 s ha))

/-- Settles O11: below address 64 STORE writes the register to the memory word, and from 64 on it enters the fault. -/
theorem storeWritesTheAddressedWordOrFaults : Obligations.StoreWritesTheAddressedWordOrFaults := by
  refine ⟨fun w hop => ?decoded, fun reg addr8 s ha => ?stored, fun reg addr8 s ha => ?faulted⟩
  case decoded =>
    exact decode_of_opcode (op := .store) hop
  case stored =>
    refine ⟨_, (exec_store reg addr8 s).trans (execStore_next reg addr8 s ha), ?_,
      unchangedBut_setWord s addr8.toNat _⟩
    rw [State.setMem_mem, Memory.wordAt_setWord, dataAddress, if_pos rfl, State.readReg_eq_x, regIndex_regSel]
  case faulted =>
    exact next_raise ((exec_store reg addr8 s).trans (execStore_raise reg addr8 s ha))

/-- Settles O12: MOV writes what it read from the register that the operand field selects. -/
theorem movCopiesTheRegister : Obligations.MovCopiesTheRegister := by
  refine ⟨fun w hop => ?decoded, fun reg operand s => ?executed⟩
  case decoded =>
    exact decode_of_opcode (op := .mov) hop
  case executed =>
    obtain ⟨t, hexec, hvalue, hframe⟩ :=
      next_writeReg_regSel ((exec_mov reg operand s).trans (execMov_next reg operand s))
    exact ⟨t, hexec, by rw [hvalue, State.readReg_eq_x, regIndex_operandSel], hframe⟩

end Sys2Proof.Machine
end

section
/-! SUPPORT. Arithmetic (R91 to R93): the registers the two operands are read from, and the
number the difference is. -/

namespace Sys2Proof.Machine

/-- The reg field names by its low 2 bits the register that is read through it (R12). -/
theorem readReg_regSel (s : State) (reg : RegField) : s.readReg (regSel reg) = s.x (reg.toNat % 4) := by
  rw [State.readReg_eq_x, regIndex_regSel]

/-- The operand field names by its low 2 bits the register that is read through it (R12). -/
theorem readReg_operandSel (s : State) (operand : OperandField) :
    s.readReg (operandSel operand) = s.x (operand.toNat % 4) := by
  rw [State.readReg_eq_x, regIndex_operandSel]

/-- The ALU's difference on integers: below zero it wraps to the non-negative remainder (R93). -/
theorem aluSub_toNat_int (a b : Word) :
    ((aluSub a b).toNat : Int) = ((a.toNat : Int) - (b.toNat : Int)) % 2 ^ 16 := by
  have hb : b.toNat < 65536 := b.isLt
  rw [aluSub_toNat]
  omega

/-- Settles O13: ADD writes the ALU's sum of the two registers as they were before the write. -/
theorem addWritesTheSumModulo : Obligations.AddWritesTheSumModulo := by
  refine ⟨fun w hop => ?decoded, fun reg operand s => ?executed⟩
  case decoded =>
    exact decode_of_opcode (op := .add) hop
  case executed =>
    obtain ⟨t, hexec, hvalue, hframe⟩ :=
      next_writeReg_regSel ((exec_add reg operand s).trans (execAdd_next reg operand s))
    exact ⟨t, hexec, by simp only [hvalue, aluAdd_toNat, readReg_regSel, readReg_operandSel, Nat.reducePow], hframe⟩

/-- Settles O14: SUB writes the ALU's difference of the two registers as they were before the write. -/
theorem subWritesTheDifferenceModulo : Obligations.SubWritesTheDifferenceModulo := by
  refine ⟨fun w hop => ?decoded, fun reg operand s => ?executed⟩
  case decoded =>
    exact decode_of_opcode (op := .sub) hop
  case executed =>
    obtain ⟨t, hexec, hvalue, hframe⟩ :=
      next_writeReg_regSel ((exec_sub reg operand s).trans (execSub_next reg operand s))
    exact ⟨t, hexec, by rw [hvalue, aluSub_toNat_int, readReg_regSel, readReg_operandSel], hframe⟩

end Sys2Proof.Machine
end

section
/-! SUPPORT. Control transfer (R94): the step of a JMP, the fault at the fetch of a target from 64 on, and the JMP to its
own address, whose step leads back to the state it leaves. -/

namespace Sys2Proof.Machine

/-- A step of a Running block from address 64 on is the fetch's fault alone (R98). -/
theorem step_eq_raise {s : State} (hs : s.CanCycle) (hpc : 64 ≤ s.pc.toNat) :
    step s = .next (s.raise .fetchOutOfRange) :=
  (step_eq_cycle hs.2).trans (cycle_of_fetch_raise hs.1 hpc)

/-- Settles O15: the meaning of JMP is `setPc`, and the step from a target of 64 or more is the fetch's fault. -/
theorem jmpReplacesThePc : Obligations.JmpReplacesThePc := by
  refine ⟨fun w hop => ?decoded, fun reg target s => ?executed⟩
  case decoded =>
    exact decode_of_opcode (op := .jmp) hop
  case executed =>
    have hexec : exec (.jmp reg target) s = .next (s.setPc (zext16 target)) :=
      (exec_jmp reg target s).trans (execJmp_next reg target s)
    have htarget : (s.setPc (zext16 target)).pc.toNat = target.toNat := by rw [State.setPc_pc, zext16_toNat]
    exact ⟨_, hexec, htarget, unchangedBut_setPc s _, fun hge hcan =>
      ⟨_, step_eq_raise hcan (htarget ▸ hge), State.raise_fault _ _, htarget, unchangedBut_raise _ _⟩⟩

/-! ### The JMP to its own address -/

/-- The state after a JMP to its own address: the word of the JMP is in `ir`, and `pc` is back where it was. -/
def State.afterSelfJmp (s : State) : State := (s.latch (s.mem.wordAt s.pc.toNat)).setPc s.pc

/-- A state without a change is unchanged but for any elements. -/
theorem State.UnchangedBut.refl (s : State) (changed : List Element) : s.UnchangedBut s changed :=
  ⟨fun _ _ _ => rfl, fun _ => rfl, fun _ => rfl, fun _ _ => rfl, fun _ => rfl, fun _ => rfl, fun _ => rfl⟩

theorem unchangedBut_afterSelfJmp (s : State) : s.UnchangedBut s.afterSelfJmp [.ir] where
  reg _ _ _ := rfl
  pc _ := rfl
  ir h := absurd List.mem_cons_self h
  word _ _ := rfl
  halted _ := rfl
  fault _ := rfl
  program _ := rfl

theorem canCycle_afterSelfJmp {s : State} (hs : s.CanCycle) : s.afterSelfJmp.CanCycle :=
  ⟨(State.runState_congr rfl rfl).trans hs.1, hs.2⟩

/-- The second JMP finds its own word in `ir` already. -/
theorem afterSelfJmp_afterSelfJmp (s : State) : s.afterSelfJmp.afterSelfJmp = s.afterSelfJmp := rfl

/-- The step of a JMP to its own address: its target replaces the `pc + 1` of the fetch by the `pc` before it (R94). -/
theorem step_selfJmp {s : State} {reg : RegField} {target : OperandField} (hs : s.CanCycle) (hpc : s.pc.toNat < 64)
    (hi : decode (s.mem.wordAt s.pc.toNat) = .ok (.jmp reg target)) (htarget : target.toNat = s.pc.toNat) :
    step s = .next s.afterSelfJmp := by
  have hback : zext16 target = s.pc := BitVec.eq_of_toNat_eq ((zext16_toNat target).trans htarget)
  calc step s
      = exec (.jmp reg target) (s.latch (s.mem.wordAt s.pc.toNat)) := stepRunsTheDecodedInstruction s _ hs hpc hi
    _ = .next ((s.latch (s.mem.wordAt s.pc.toNat)).setPc (zext16 target)) := execJmp_next reg target _
    _ = .next s.afterSelfJmp := by rw [hback, State.afterSelfJmp]

/-- A state whose step leads back to it is left by no number of cycles. -/
theorem runCommands_cycles_of_step_self {s : State} (h : step s = .next s) (k : Nat) :
    runCommands (List.replicate k .cycle) s = .next s := by
  induction k with
  | zero => rfl
  | succ k ih => rw [List.replicate_succ, runCommands_cons .cycle _ s s h, ih]

/-- Settles O35: the first cycle leads to `afterSelfJmp`, and every later one from there back to it. -/
theorem jmpToItselfNeverEnds : Obligations.JmpToItselfNeverEnds := by
  intro s reg target hs hpc hi htarget k
  cases k with
  | zero => exact ⟨s, rfl, hs, .refl s _⟩
  | succ k =>
    have hfirst : step s = .next s.afterSelfJmp := step_selfJmp hs hpc hi htarget
    have hlater : step s.afterSelfJmp = .next s.afterSelfJmp :=
      (step_selfJmp (canCycle_afterSelfJmp hs) hpc hi htarget).trans (by rw [afterSelfJmp_afterSelfJmp])
    refine ⟨s.afterSelfJmp, ?_, canCycle_afterSelfJmp hs, unchangedBut_afterSelfJmp s⟩
    rw [List.replicate_succ, runCommands_cons .cycle _ s _ hfirst, runCommands_cycles_of_step_self hlater]

end Sys2Proof.Machine
end

section
/-! SUPPORT. Faults (R97 to R104): which check of a cycle applies, read from `pc` and the fetched word as numbers, and the
state each fault leaves. -/

namespace Sys2Proof.Machine

/-! ### The checks of the execute phase, on the word as a number -/

/-- The data access of an instruction read from its word: opcode 2 or 3, at the operand field (R52, R88, R89). -/
theorem accessedAddress_eq_some {w : Word} {i : Instr} (hi : decode w = .ok i) (a : Nat) :
    accessedAddress i = some a ↔ (w.toNat / 4096 = 2 ∨ w.toNat / 4096 = 3) ∧ a = w.toNat % 256 := by
  have hopcode : w.toNat / 4096 = (codeOf (opcodeOf i)).toNat := opcode_of_decode_ok hi
  have hoperand : w.toNat % 256 = (operandFieldOf i).toNat := by
    rw [← ((decode_eq_ok w i).mp hi).2.2, decodeFields_operand_toNat]
  rw [hopcode, hoperand]
  cases i with
  | load | store => simp [accessedAddress, opcodeOf, codeOf, operandFieldOf, eq_comm]
  | halt | lval | add | sub | jmp | mov => simp [accessedAddress, opcodeOf, codeOf]

/-- A word of opcode 0 to 7 is an instruction (R53, R56). -/
theorem decode_of_opcode_lt_eight {w : Word} (h : w.toNat / 4096 < 8) : ∃ i, decode w = .ok i :=
  (decode_cases w).resolve_right fun hr => absurd ((decode_refuses_iff w).mp hr) (Nat.not_le.mpr h)

/-- A word of opcode 2 or 3 is an instruction that accesses its operand (R88, R89). -/
theorem decode_of_data_opcode {w : Word} (hop : w.toNat / 4096 = 2 ∨ w.toNat / 4096 = 3) :
    ∃ i, decode w = .ok i ∧ accessedAddress i = some (w.toNat % 256) := by
  obtain ⟨i, hi⟩ := decode_of_opcode_lt_eight (w := w) (by omega)
  exact ⟨i, hi, (accessedAddress_eq_some hi _).mpr ⟨hop, rfl⟩⟩

/-- An access from address 64 on raises DATA_OUT_OF_RANGE, by a LOAD or by a STORE (R99). -/
theorem exec_eq_raise {i : Instr} {s : State} {a : Nat} (hi : accessedAddress i = some a) (ha : 64 ≤ a) :
    exec i s = .next (s.raise .dataOutOfRange) := by
  cases i with
  | load reg addr8 => cases hi; exact execLoad_raise reg addr8 s ha
  | store reg addr8 => cases hi; exact execStore_raise reg addr8 s ha
  | halt | lval | add | sub | jmp | mov => cases hi

/-- A meaning without an access from address 64 on raises no fault (R96). -/
theorem exec_fault_of_access_lt {i : Instr} {s t : State} (h : exec i s = .next t)
    (ha : ∀ a, accessedAddress i = some a → a < 64) : t.fault = s.fault := by
  obtain ⟨_, _, rfl⟩ | ⟨_, _, _, _, rfl⟩ | ⟨_, _, _, rfl⟩ | ⟨_, _, _, rfl⟩ | ⟨a, hi, hge, _⟩ := exec_cases h
  · rfl
  · rfl
  · rfl
  · rfl
  · exact absurd (ha a hi) (Nat.not_lt.mpr hge)

/-! ### The state a fault of the execute phase leaves -/

/-- The state after a cycle whose execute phase raises `c`: the fetch has completed, and nothing more but `fault` is
written (R97, R99, R100). -/
def State.raiseAfterFetch (s : State) (c : FaultStatus) : State := (s.latch (s.mem.wordAt s.pc.toNat)).raise c

@[simp] theorem State.raiseAfterFetch_ir (s : State) (c : FaultStatus) :
    (s.raiseAfterFetch c).ir = s.mem.wordAt s.pc.toNat := rfl
@[simp] theorem State.raiseAfterFetch_pc (s : State) (c : FaultStatus) : (s.raiseAfterFetch c).pc = s.pc + 1 := rfl
@[simp] theorem State.raiseAfterFetch_fault (s : State) (c : FaultStatus) : (s.raiseAfterFetch c).fault = c := rfl

theorem unchangedBut_raiseAfterFetch (s : State) (c : FaultStatus) :
    s.UnchangedBut (s.raiseAfterFetch c) [.ir, .pc, .fault] :=
  (unchangedBut_latch s _).trans (unchangedBut_raise _ c)

/-! ### The cycle under each check (R102); `step_eq_raise` is the first -/

/-- The second check: an opcode of 8 to 15 (R97). -/
theorem step_eq_raise_invalidOpcode {s : State} (hs : s.CanCycle) (hpc : s.pc.toNat < 64)
    (hop : 8 ≤ (s.mem.wordAt s.pc.toNat).toNat / 4096) : step s = .next (s.raiseAfterFetch .invalidOpcode) := by
  obtain ⟨r, hr⟩ := (decode_refuses_iff _).mpr hop
  exact (step_eq_execute_latch hs.2 hs.1 hpc).trans (execute_eq_raise (s := s.latch _) hr)

/-- The third check: a LOAD or a STORE of an operand from 64 on (R99). -/
theorem step_eq_raise_dataOutOfRange {s : State} (hs : s.CanCycle) (hpc : s.pc.toNat < 64)
    (hop : (s.mem.wordAt s.pc.toNat).toNat / 4096 = 2 ∨ (s.mem.wordAt s.pc.toNat).toNat / 4096 = 3)
    (ha : 64 ≤ (s.mem.wordAt s.pc.toNat).toNat % 256) : step s = .next (s.raiseAfterFetch .dataOutOfRange) := by
  obtain ⟨i, hi, haccess⟩ := decode_of_data_opcode hop
  exact (stepRunsTheDecodedInstruction s i hs hpc hi).trans (exec_eq_raise haccess ha)

/-- A cycle to which no check applies raises no fault. -/
theorem step_without_fault {s : State} (hs : s.CanCycle) (hpc : s.pc.toNat < 64)
    (hop : (s.mem.wordAt s.pc.toNat).toNat / 4096 < 8)
    (ha : ¬ (((s.mem.wordAt s.pc.toNat).toNat / 4096 = 2 ∨ (s.mem.wordAt s.pc.toNat).toNat / 4096 = 3) ∧
      64 ≤ (s.mem.wordAt s.pc.toNat).toNat % 256)) : ∃ t, step s = .next t ∧ t.fault = .none := by
  obtain ⟨i, hi⟩ := decode_of_opcode_lt_eight hop
  obtain ⟨t, hexec⟩ := exec_next i (s.latch (s.mem.wordAt s.pc.toNat))
  have hbelow (a : Nat) (haccess : accessedAddress i = some a) : a < 64 := by
    obtain ⟨hdata, rfl⟩ := (accessedAddress_eq_some hi a).mp haccess
    exact Nat.not_le.mp fun hge => ha ⟨hdata, hge⟩
  exact ⟨t, (stepRunsTheDecodedInstruction s i hs hpc hi).trans hexec,
    (exec_fault_of_access_lt hexec hbelow).trans ((State.runState_running_iff s).mp hs.1).2⟩

/-- Settles O18: the cycle under the second check. -/
theorem invalidOpcodeFaultEntry : Obligations.InvalidOpcodeFaultEntry :=
  fun s hs hpc hop => ⟨_, step_eq_raise_invalidOpcode hs hpc hop, rfl, rfl, rfl, unchangedBut_raiseAfterFetch s _⟩

/-- Settles O19: the cycle under the first check, which is the fetch's fault alone. -/
theorem fetchOutOfRangeFaultEntry : Obligations.FetchOutOfRangeFaultEntry :=
  fun s hs hpc => ⟨_, step_eq_raise hs hpc, rfl, unchangedBut_raise s _⟩

/-- Settles O20: the cycle under the third check. -/
theorem dataOutOfRangeFaultEntry : Obligations.DataOutOfRangeFaultEntry :=
  fun s hs hpc hop ha =>
    ⟨_, step_eq_raise_dataOutOfRange hs hpc hop ha, rfl, rfl, rfl, unchangedBut_raiseAfterFetch s _⟩

/-- Settles O21: one branch of `cycleFault` for each check, and the last for the cycle to which none applies. -/
theorem cycleRaisesTheFirstFaultInOrder : Obligations.CycleRaisesTheFirstFaultInOrder := by
  intro s hs
  simp only [State.cycleFault]
  split_ifs with hfetch hopcode hdata
  · exact ⟨_, step_eq_raise hs hfetch, rfl⟩
  · exact ⟨_, step_eq_raise_invalidOpcode hs (Nat.not_le.mp hfetch) hopcode, rfl⟩
  · exact ⟨_, step_eq_raise_dataOutOfRange hs (Nat.not_le.mp hfetch) hdata.1 hdata.2, rfl⟩
  · exact step_without_fault hs (Nat.not_le.mp hfetch) (Nat.not_le.mp hopcode) hdata

/-! ### What a fault tells of the cycle that raised it -/

/-- A cycle that answers a next state raised no fault, or the one of the check that applied, in the state of R103. -/
theorem step_fault_cases {s t : State} (hs : s.CanCycle) (h : step s = .next t) :
    t.fault = .none ∨
    (64 ≤ s.pc.toNat ∧ t = s.raise .fetchOutOfRange) ∨
    (8 ≤ (s.mem.wordAt s.pc.toNat).toNat / 4096 ∧ t = s.raiseAfterFetch .invalidOpcode) ∨
    (((s.mem.wordAt s.pc.toNat).toNat / 4096 = 2 ∨ (s.mem.wordAt s.pc.toNat).toNat / 4096 = 3) ∧
      64 ≤ (s.mem.wordAt s.pc.toNat).toNat % 256 ∧ t = s.raiseAfterFetch .dataOutOfRange) := by
  rcases Nat.lt_or_ge s.pc.toNat 64 with hpc | hpc
  · rcases Nat.lt_or_ge ((s.mem.wordAt s.pc.toNat).toNat / 4096) 8 with hop | hop
    · by_cases hdata : ((s.mem.wordAt s.pc.toNat).toNat / 4096 = 2 ∨ (s.mem.wordAt s.pc.toNat).toNat / 4096 = 3) ∧
          64 ≤ (s.mem.wordAt s.pc.toNat).toNat % 256
      · rw [step_eq_raise_dataOutOfRange hs hpc hdata.1 hdata.2] at h
        cases h; exact .inr (.inr (.inr ⟨hdata.1, hdata.2, rfl⟩))
      · obtain ⟨u, hu, hf⟩ := step_without_fault hs hpc hop hdata
        rw [hu] at h
        cases h; exact .inl hf
    · rw [step_eq_raise_invalidOpcode hs hpc hop] at h
      cases h; exact .inr (.inr (.inl ⟨hop, rfl⟩))
  · rw [step_eq_raise hs hpc] at h
    cases h; exact .inr (.inl ⟨hpc, rfl⟩)

/-- Settles O22: of the states that `step_fault_cases` lists, only one holds each fault, and its frame is the row of
R103. -/
theorem faultsArePrecise : Obligations.FaultsArePrecise := by
  intro s t hs h
  obtain hnone | ⟨_, rfl⟩ | ⟨_, rfl⟩ | ⟨_, _, rfl⟩ := step_fault_cases hs h
  · simp [hnone]
  · exact ⟨fun _ => unchangedBut_raise s _, by simp⟩
  · exact ⟨nofun, fun _ => ⟨rfl, rfl, unchangedBut_raiseAfterFetch s _⟩⟩
  · exact ⟨nofun, fun _ => ⟨rfl, rfl, unchangedBut_raiseAfterFetch s _⟩⟩

/-- The report after INVALID_OPCODE: the word in `ir`, and `pc - 1`, which the increment of the fetch makes its address
(R16, R104). -/
theorem faultReport_invalidOpcode (s : State) :
    (s.raiseAfterFetch .invalidOpcode).faultReport = some (.invalidOpcode (s.mem.wordAt s.pc.toNat) s.pc) := by
  simp [State.faultReport]

/-- The report after DATA_OUT_OF_RANGE: besides the word and its address, the operand that was the data address
(R104). -/
theorem faultReport_dataOutOfRange (s : State) :
    (s.raiseAfterFetch .dataOutOfRange).faultReport = some (.dataOutOfRange (s.mem.wordAt s.pc.toNat) s.pc
      (BitVec.ofNat 8 ((s.mem.wordAt s.pc.toNat).toNat % 256))) := by
  have hoperand (w : Word) : (decodeFields w).operand = BitVec.ofNat 8 (w.toNat % 256) :=
    BitVec.eq_of_toNat_eq (by simp [decodeFields_operand_toNat])
  simp [State.faultReport, hoperand]

/-- Settles O23: the report of each state that `step_fault_cases` lists; the data address is the operand of the word, which
its LOAD or STORE accesses. -/
theorem hostFindsTheCauseOfAFault : Obligations.HostFindsTheCauseOfAFault := by
  intro s t hs h
  obtain hnone | ⟨hpc, rfl⟩ | ⟨_, rfl⟩ | ⟨hdata, hge, rfl⟩ := step_fault_cases hs h
  · simp [hnone]
  · exact ⟨fun _ => ⟨rfl, hpc⟩, nofun, nofun⟩
  · exact ⟨nofun, fun _ => faultReport_invalidOpcode s, nofun⟩
  · obtain ⟨i, hi, haccess⟩ := decode_of_data_opcode hdata
    exact ⟨nofun, nofun, fun _ => ⟨i, _, hi, haccess, hge, faultReport_dataOutOfRange s⟩⟩

end Sys2Proof.Machine
end

section
/-! SUPPORT. Load and reset (R114 to R119): each element of the reset state, the words of an image one by one, and the
images the load's check accepts. -/

namespace Sys2Proof.Machine

/-! ### The reset state, element by element (R27, R118) -/

/-- Reset clears every register (R27). -/
theorem State.x_resetFrom (p : Program) (n : Nat) : (State.resetFrom p).x n = 0 := by
  match n with
  | 0 | 1 | 2 | _ + 3 => rfl

/-- Reset places the program from address 0 on, with zeros above it (R118). -/
theorem wordAt_resetFrom (p : Program) (a : Nat) : (State.resetFrom p).mem.wordAt a = p.getD a 0 := by
  simp [Memory.wordAt_ofWordsFrom]

/-- After reset the block is Running with the program recorded (R119). -/
theorem canCycle_resetFrom (p : Program) : (State.resetFrom p).CanCycle :=
  ⟨(State.runState_running_iff _).mpr ⟨rfl, rfl⟩, by simp⟩

/-- RESET reads nothing of the state but the recorded program (R118). -/
theorem resetCommand_eq_resetFrom {s : State} {p : Program} (hp : s.program = some p) :
    runCommand .reset s = .next (State.resetFrom p) := by
  simp only [runCommand, resetCommand, hp]

/-- Settles O41: the state is `State.resetFrom`, whose memory reads as the program and 0 beyond it. -/
theorem resetBuildsTheInitialState : Obligations.ResetBuildsTheInitialState := by
  intro s p hp _
  refine ⟨State.resetFrom p, resetCommand_eq_resetFrom hp, fun n _ => State.x_resetFrom p n, rfl, rfl, rfl, rfl,
    fun a ha => ?inProgram, fun a ha => ?aboveProgram, rfl, canCycle_resetFrom p⟩
  case inProgram => rw [wordAt_resetFrom, List.getD_eq_getElem p 0 ha]
  case aboveProgram => rw [wordAt_resetFrom, List.getD_eq_default p 0 ha]

/-! ### The words of an image (R116) -/

/-- Word `i` of an image is made of its bytes `2 i` and `2 i + 1`, the high one first (R116). -/
theorem getD_imageWords {image : List Byte} {p : List Word} (h : imageWords image = some p) (i : Nat) :
    p.getD i 0 = wordOfBytes (image.getD (2 * i) 0) (image.getD (2 * i + 1) 0) := by
  induction image using imageWords.induct generalizing p i with
  | case1 =>
    cases h
    simp only [List.getD_nil]; rfl
  | case2 => cases h
  | case3 hi lo rest ih =>
    obtain ⟨q, hq, rfl⟩ := Option.map_eq_some_iff.mp h
    cases i with
    | zero => rfl
    | succ i => exact ih hq i

/-! ### The check of a load (R115, R116) -/

/-- The check accepts an even number of bytes, at most 128, and answers their words. -/
theorem checkImage_eq_ok_iff {image : List Byte} {p : Program} :
    checkImage image = .ok p ↔ imageWords image = some p ∧ image.length ≤ 128 := by
  unfold checkImage
  cases hwords : imageWords image with
  | none => simp
  | some q =>
    have hlength : q.length ≤ Config.maxProgramWords ↔ image.length ≤ 128 := by
      rw [imageWords_length hwords, Config.maxProgramWords]; omega
    by_cases hfits : image.length ≤ 128
    · simp [hlength.mpr hfits, hfits]
    · simp [mt hlength.mp hfits, hfits]

/-- An image of odd length, or of more than 128 bytes, is refused. -/
theorem checkImage_eq_error {image : List Byte} (h : image.length % 2 = 1 ∨ 128 < image.length) :
    ∃ r, checkImage image = .error r := by
  cases hcheck : checkImage image with
  | error r => exact ⟨r, rfl⟩
  | ok p =>
    obtain ⟨hwords, hfits⟩ := checkImage_eq_ok_iff.mp hcheck
    have := imageWords_length hwords
    omega

/-- LOAD of an accepted image resets the block from its program (R117). -/
theorem loadImage_of_ok {image : List Byte} {p : Program} (h : checkImage image = .ok p) (s : State) :
    runCommand (.load image) s = .next (State.resetFrom p) := by
  simp only [runCommand, loadImage, h]

/-- LOAD of a refused image changes nothing (R117). -/
theorem loadImage_of_error {image : List Byte} {r : LoadRefusal} (h : checkImage image = .error r) (s : State) :
    runCommand (.load image) s = .next s := by
  simp only [runCommand, loadImage, h]

/-- Settles O42: an even image has words, and where they fit LOAD ends in the state that RESET from them builds; any other
image fails the check. -/
theorem loadAcceptsOrRefusesTheImage : Obligations.LoadAcceptsOrRefusesTheImage := by
  refine ⟨fun image heven hfits => ?accepted, fun image hbad => ?refused⟩
  case accepted =>
    obtain ⟨p, hwords⟩ := Option.isSome_iff_exists.mp ((imageWords_isSome image).trans (decide_eq_true heven))
    refine ⟨p, ?length, fun i _ => ?word, fun s => ⟨State.resetFrom p,
      loadImage_of_ok (checkImage_eq_ok_iff.mpr ⟨hwords, hfits⟩) s, rfl, resetCommand_eq_resetFrom rfl,
      wordAt_resetFrom p⟩⟩
    case length => rw [imageWords_length hwords]; omega
    case word => rw [getD_imageWords hwords, wordOfBytes_toNat]; norm_num
  case refused =>
    obtain ⟨r, hr⟩ := checkImage_eq_error hbad
    exact ⟨⟨r, hr⟩, loadImage_of_error hr⟩

end Sys2Proof.Machine
end

section
/-! SUPPORT. The model's own forms: a canonical memory is fixed by the words it reads as (log 4), a placed word is what the
next step runs (log 12), and no command but LOAD has a step before the first load (log 1). -/

namespace Sys2Proof.Machine

/-- Settles O43: each command but LOAD asks for the recorded program first. -/
theorem onlyLoadHasAStepBeforeTheFirstLoad : Obligations.OnlyLoadHasAStepBeforeTheFirstLoad :=
  fun _ _ => runCommand_of_no_program

/-! ### The cells of a canonical memory are its words other than 0 (R30) -/

/-- Rising addresses make every listed cell readable. -/
theorem Memory.wordAt_of_mem {m : Memory} (h : m.Pairwise (fun c d => c.1 < d.1)) {c : Cell} (hc : c ∈ m) :
    m.wordAt c.1 = c.2 := by
  induction m with
  | nil => cases hc
  | cons d m ih =>
    obtain ⟨hhead, htail⟩ := List.pairwise_cons.mp h
    rw [Memory.wordAt_cons]
    obtain rfl | hmem := List.mem_cons.mp hc
    · exact if_pos rfl
    · rw [if_neg (Nat.ne_of_lt (hhead c hmem)), ih htail hmem]

/-- A word other than the zero-fill is listed. -/
theorem Memory.mem_of_wordAt_ne_zero {m : Memory} {a : Nat} (h : m.wordAt a ≠ 0) : (a, m.wordAt a) ∈ m := by
  induction m with
  | nil => exact absurd (Memory.wordAt_nil a) h
  | cons d m ih =>
    rw [Memory.wordAt_cons] at h ⊢
    split at h
    case isTrue haddr =>
      subst haddr
      rw [if_pos rfl]
      exact List.mem_cons_self
    case isFalse haddr =>
      rw [if_neg haddr]
      exact List.mem_cons_of_mem d (ih h)

theorem Memory.mem_iff_of_wf {m : Memory} (h : m.wf) (c : Cell) :
    c ∈ m ↔ c.1 < 64 ∧ c.2 ≠ 0 ∧ m.wordAt c.1 = c.2 := by
  obtain ⟨hrising, hcells⟩ := h
  constructor
  · intro hc
    obtain ⟨haddr, hword⟩ := hcells c hc
    exact ⟨haddr, hword, Memory.wordAt_of_mem hrising hc⟩
  · obtain ⟨a, v⟩ := c
    rintro ⟨_, hword, hread⟩
    obtain rfl : m.wordAt a = v := hread
    exact Memory.mem_of_wordAt_ne_zero hword

/-- Settles O40: the words decide which cells are listed, and rising addresses decide their order. -/
theorem canonicalMemoriesWithEqualWordsAreEqual : Obligations.CanonicalMemoriesWithEqualWordsAreEqual := by
  intro m m' h h' hwords
  have hmem (c : Cell) : c ∈ m ↔ c ∈ m' := by
    rw [Memory.mem_iff_of_wf h, Memory.mem_iff_of_wf h']
    refine and_congr_right fun haddr => ?_
    rw [hwords c.1 haddr]
  have : Std.Irrefl (fun c d : Cell => c.1 < d.1) := ⟨fun c => Nat.lt_irrefl c.1⟩
  have : Std.Antisymm (fun c d : Cell => c.1 < d.1) := ⟨fun _ _ hcd hdc => absurd hdc (Nat.lt_asymm hcd)⟩
  exact List.Pairwise.eq_of_mem_iff h.1 h'.1 hmem

/-! ### The state with a word placed for the next step -/

/-- Sixteen bits of the table's number are the whole word (R45). -/
theorem tableWord_sixteen (w : Nat) : tableWord 16 w = BitVec.ofNat 16 w :=
  BitVec.eq_of_toNat_eq (by simp [tableWord])

theorem placeNextWord_pc_lt (s : State) (w : Word) : (s.placeNextWord w).pc.toNat < 64 := by
  simp only [State.placeNextWord]
  split
  · assumption
  · decide

theorem canCycle_placeNextWord (s : State) (w : Word) : (s.placeNextWord w).CanCycle :=
  ⟨(State.runState_running_iff _).mpr ⟨rfl, rfl⟩, by simp [State.placeNextWord]⟩

theorem wordAt_pc_placeNextWord (s : State) (w : Word) :
    (s.placeNextWord w).mem.wordAt (s.placeNextWord w).pc.toNat = w :=
  (Memory.wordAt_setWord _ _ _ _).trans (if_pos rfl)

/-- Where a cycle has a step and its fetch finds a word, the placing is a memory write at `pc`. -/
theorem placeNextWord_eq_setMem {s : State} (hs : s.CanCycle) (hpc : s.pc.toNat < 64) (w : Word) :
    s.placeNextWord w = s.setMem (s.mem.setWord s.pc.toNat w) := by
  obtain ⟨hr, hp⟩ := hs
  obtain ⟨hhalted, hfault⟩ := (State.runState_running_iff s).mp hr
  obtain ⟨p, hp⟩ := Option.ne_none_iff_exists'.mp hp
  simp [State.placeNextWord, State.setMem, hpc, hhalted, hfault, hp]

/-- Settles O44: the state with the word placed can cycle, so its step is the meaning of the word on its latch; and where
the state can cycle the placing is one memory write. -/
theorem placedWordRunsNext : Obligations.PlacedWordRunsNext := by
  intro s w i hi
  rw [State.withFetchWord, tableWord_sixteen]
  refine ⟨⟨(s.placeNextWord (BitVec.ofNat 16 w)).latch (BitVec.ofNat 16 w), ?runs, rfl, rfl, unchangedBut_latch _ _⟩,
    fun hs hpc => ?frame⟩
  case runs =>
    have hword := wordAt_pc_placeNextWord s (BitVec.ofNat 16 w)
    have hstep := stepRunsTheDecodedInstruction _ i (canCycle_placeNextWord s _) (placeNextWord_pc_lt s _)
      (hword.symm ▸ hi)
    rwa [hword] at hstep
  case frame =>
    rw [placeNextWord_eq_setMem hs hpc]
    exact unchangedBut_setWord s s.pc.toNat _

end Sys2Proof.Machine
end
